-- ==== Sys2Proof/Word.lean ====
section
/-! DEFINITION. The words of GF256-CORE: field elements, the fields of a request and of a response
(spec/00_scope.md R9 and R12, spec/30_encoding.md R60 and R61). Bit 0 is the least significant bit. -/

namespace Sys2Proof

/-- A field element: an 8-bit unsigned value, bit i the coefficient of x^i (R12). -/
abbrev Byte := BitVec 8

/-- The OP field of a request (R60). -/
abbrev OpCode := BitVec 4

/-- The DATA field of a response (R61). -/
abbrev Data := BitVec 48

/-- The packed word of four lanes (R63, form WW). -/
abbrev Packed := BitVec 32

/-- The 84-bit request word (R60). -/
abbrev ReqWord := BitVec 84

/-- The 50-bit response word (R61). -/
abbrev RspWord := BitVec 50

/-- A request as the three fields the request port carries (R21, R60). -/
structure Request where
  op : OpCode
  a : BitVec 48
  b : BitVec 32
  deriving DecidableEq, Repr

/-- The names of the STATUS field's values (spec/60_exceptions.md R140). Code 3 is reserved and never
produced, so it has no name here. -/
inductive Status where
  | ok
  | illegalOp
  | insufficientSymbols
  deriving DecidableEq, Repr

/-- A response: what `respond(s, d)` completes a request with (R13, R61). -/
structure Response where
  status : Status
  data : Data
  deriving DecidableEq, Repr

end Sys2Proof
end

