-- ==== Sys2Proof/Config.lean ====
section
/-! DEFINITION. What an implementation of GF256-CORE fixes (spec/00_scope.md R9, spec/93 section 3), and
the free values: what the spec leaves unspecified, as constants without a body. -/

namespace Sys2Proof

/-- TABLE_IMPL: tables held in ROM, or computed after reset (R9, D20). -/
inductive TableImpl where
  | rom
  | build
  deriving DecidableEq, Repr

/-- INV_IMPL: the internal method of INV (R9, spec/42_inverse.md R111). -/
inductive InvImpl where
  | log
  | table
  | fermat
  deriving DecidableEq, Repr

/-- MUL_IMPL: the internal method of the multiplies inside MULP4, INV, ENC and DEC (R9, D18). -/
inductive MulImpl where
  | bitwise
  | log
  | table
  deriving DecidableEq, Repr

/-- The four internal tables (spec/20_memory.md R40 to R43). -/
inductive TableName where
  | exp
  | log
  | multab
  | invtab
  deriving DecidableEq, Repr

/-- The parameters "the model takes as arguments" (R9). They are fixed for a machine: no step changes
them, and no statement assumes a value of them. DESIGN CHOICE (log 1): they stand in State. -/
structure Params where
  /-- MAX_OUTSTANDING: most requests accepted and not yet responded to; an integer ≥ 1. -/
  maxOutstanding : Nat
  /-- LAT(op), one entry for each of the 16 codes, the reserved ones too (R28); each an integer ≥ 1. -/
  lat : Vector Nat 16
  /-- INIT_CYCLES: an integer ≥ 0. -/
  initCycles : Nat
  tableImpl : TableImpl
  invImpl : InvImpl
  mulImpl : MulImpl
  deriving DecidableEq, Repr

/-- LAT(op). -/
def Params.latOf (p : Params) (op : OpCode) : Nat := p.lat[op.toNat]'op.isLt

/-- The parameters of the spec's own cycle-level trace (spec/95_test_vectors.md Program 4), with the
methods of R110's and R100's pseudocode for the two it does not name. DESIGN CHOICE (log 1). -/
def Params.program4 : Params where
  maxOutstanding := 2
  lat := Vector.replicate 16 1
  initCycles := 0
  tableImpl := .rom
  invImpl := .log
  mulImpl := .table

/-- FREE VALUE (log 5): the content of LOG[0], "any value" (R41, D33, spec/93 U1). -/
opaque Config.logZero : Byte

/-- FREE VALUE (log 6): the content of a table entry while TABLE_IMPL = BUILD has not finished
(spec/10_state.md R34, spec/93 S3), for the n-th edge, a table and an index. -/
opaque Config.unbuiltByte : Nat → TableName → Nat → Byte

/-- FREE VALUE (log 7): {rsp_status, rsp_data} while rsp_valid = 0, at the n-th cycle (R25, spec/93 S1). -/
opaque Config.idleResponse : Nat → RspWord

end Sys2Proof
end

