-- ==== Sys2Proof/Syntax.lean ====
section
/-! DEFINITION. The instructions of GF256-CORE: one constructor for each row of spec/opcode_table.json
(spec/30_encoding.md R63 and R66). The operands are the named bit fields of the row's form and nothing
else: a request bit outside them is ignored (R67) and is no part of the instruction. -/

namespace Sys2Proof

inductive Instr where
  /-- ADD, form BB (spec/40_field_arithmetic.md R80). -/
  | add (a b : Byte)
  /-- MULB, form BB (R83). -/
  | mulb (a b : Byte)
  /-- MULL, form BB (R86). -/
  | mull (a b : Byte)
  /-- MULT, form BB (R88). -/
  | mult (a b : Byte)
  /-- MULP4, form WW (spec/41_packed.md R100). -/
  | mulp4 (a b : Packed)
  /-- INV, form B (spec/42_inverse.md R110). -/
  | inv (a : Byte)
  /-- POW, form BB: base and unsigned exponent (R84). -/
  | pow (base exponent : Byte)
  /-- ENC, form BB (spec/43_erasure_code.md R120). -/
  | enc (y0 y1 : Byte)
  /-- DEC, form CM: the symbols at positions 0 to 5, and the mask, bit x set when position x is
  present (R123). -/
  | dec (c0 c1 c2 c3 c4 c5 : Byte) (present : BitVec 6)
  deriving DecidableEq, Repr

/-- The OP code of an instruction (R66). -/
def Instr.op : Instr → OpCode
  | .add _ _ => 0x0
  | .mulb _ _ => 0x1
  | .mull _ _ => 0x2
  | .mult _ _ => 0x3
  | .mulp4 _ _ => 0x4
  | .inv _ => 0x5
  | .pow _ _ => 0x6
  | .enc _ _ => 0x7
  | .dec _ _ _ _ _ _ _ => 0x8

end Sys2Proof
end

