-- ==== Sys2Proof/WellFormed.lean ====
section
/-! DEFINITION. Well-formedness. An `Instr` needs no check: each operand's type is exactly its bit field,
every value of which the encoding admits (spec/30_encoding.md R63, R64), so every `Instr` is well formed.
What can be ill formed is a set of parameters (spec/00_scope.md R9) and a line of assembler source
(R70), whose operands are numbers of any size. -/

namespace Sys2Proof

/-- The domains of R9: MAX_OUTSTANDING ≥ 1 and LAT(op) ≥ 1 for every code. INIT_CYCLES, a natural, has
no bound of its own: the length of the BUILD procedure is not given (log 8). -/
def Params.wf (p : Params) : Bool :=
  decide (1 ≤ p.maxOutstanding) && p.lat.toList.all (fun n => decide (1 ≤ n))

/-- A line of assembler source after parsing, with operands as the numbers written (R70), and the
pseudo-instructions of R71. -/
inductive AsmLine where
  | add (a b : Nat)
  | mulb (a b : Nat)
  | mull (a b : Nat)
  | mult (a b : Nat)
  | pow (base exponent : Nat)
  | inv (a : Nat)
  | mulp4 (a b : Nat)
  | enc (y0 y1 : Nat)
  /-- the six symbols and the listed present positions. -/
  | dec (c0 c1 c2 c3 c4 c5 : Nat) (positions : List Nat)
  /-- `.word`: the three fields of a raw request word. -/
  | word (op a b : Nat)
  | sub (a b : Nat)
  | mul (a b : Nat)
  | sqr (a : Nat)
  | div (a b : Nat)
  deriving DecidableEq, Repr

/-- A number fits an operand of n bits. -/
def fits (n v : Nat) : Bool := decide (v < 2 ^ n)

/-- "Its value must fit the operand width of rule R63, or the assembler rejects the line"; the positions
of a DEC line are each in 0..5 and listed at most once (R70). -/
def AsmLine.wf : AsmLine → Bool
  | .add a b | .mulb a b | .mull a b | .mult a b | .pow a b | .enc a b => fits 8 a && fits 8 b
  | .sub a b | .mul a b | .div a b => fits 8 a && fits 8 b
  | .inv a | .sqr a => fits 8 a
  | .mulp4 a b => fits 32 a && fits 32 b
  | .dec c0 c1 c2 c3 c4 c5 ps =>
      [c0, c1, c2, c3, c4, c5].all (fits 8) && ps.all (fun p => decide (p < 6)) && decide ps.Nodup
  | .word op a b => fits 4 op && fits 48 a && fits 32 b

end Sys2Proof
end

