-- ==== Sys2Proof/Decode.lean ====
section
/-! DEFINITION. Decoding a request word and encoding an instruction, from the layout of
spec/30_encoding.md R60, the operand forms of R63 and the opcode map of R66. The decoder is total on all
2^84 words (R69); the words outside the map are the reserved codes, rejected by name (R68). -/

namespace Sys2Proof

/-! ### Fields of the request word (R60) -/

def opField (w : ReqWord) : OpCode := w.extractLsb' 80 4
def aField (w : ReqWord) : BitVec 48 := w.extractLsb' 32 48
def bField (w : ReqWord) : BitVec 32 := w.extractLsb' 0 32

/-- The request that a word carries. -/
def requestOf (w : ReqWord) : Request := ⟨opField w, aField w, bField w⟩

/-- The concatenation of the three ports is the request word (spec/10_state.md R21). -/
def Request.word (r : Request) : ReqWord := r.op ++ r.a ++ r.b

/-! ### Operand forms (R63) -/

/-- Forms BB and B: a = A[7:0]. -/
def byteA (w : ReqWord) : Byte := (aField w).extractLsb' 0 8
/-- Form BB: b = B[7:0]. -/
def byteB (w : ReqWord) : Byte := (bField w).extractLsb' 0 8
/-- Form WW: a = A[31:0]. -/
def packedA (w : ReqWord) : Packed := (aField w).extractLsb' 0 32
/-- Form WW: b = B[31:0]. -/
def packedB (w : ReqWord) : Packed := (bField w).extractLsb' 0 32
/-- Form CM: c[x] = A[8x+7:8x]. -/
def symbolField (w : ReqWord) (x : Nat) : Byte := (aField w).extractLsb' (8 * x) 8
/-- Form CM: present[x] = B[x], x = 0..5. -/
def presentField (w : ReqWord) : BitVec 6 := (bField w).extractLsb' 0 6

/-- Why a word is no instruction. -/
inductive DecodeError where
  /-- OP is one of the reserved codes 0x9 to 0xF (R68). -/
  | reservedOp (op : OpCode)
  deriving DecidableEq, Repr

/-- The decoder: OP alone selects the operation (R60, R62). -/
def decode (w : ReqWord) : Except DecodeError Instr :=
  match (opField w).toNat with
  | 0x0 => .ok (.add (byteA w) (byteB w))
  | 0x1 => .ok (.mulb (byteA w) (byteB w))
  | 0x2 => .ok (.mull (byteA w) (byteB w))
  | 0x3 => .ok (.mult (byteA w) (byteB w))
  | 0x4 => .ok (.mulp4 (packedA w) (packedB w))
  | 0x5 => .ok (.inv (byteA w))
  | 0x6 => .ok (.pow (byteA w) (byteB w))
  | 0x7 => .ok (.enc (byteA w) (byteB w))
  | 0x8 => .ok (.dec (symbolField w 0) (symbolField w 1) (symbolField w 2) (symbolField w 3)
                  (symbolField w 4) (symbolField w 5) (presentField w))
  | _ => .error (.reservedOp (opField w))

/-! ### The encoder (R63, R66; "emits 0 in every other bit", R70) -/

/-- Form BB (and B with b = 0): the request word of a code and two bytes. -/
def wordBB (op : OpCode) (a b : Byte) : ReqWord := op ++ (0#40 ++ a) ++ (0#24 ++ b)

/-- Form WW. -/
def wordWW (op : OpCode) (a b : Packed) : ReqWord := op ++ (0#16 ++ a) ++ b

/-- Form CM: symbol x in A[8x+7:8x], the mask in B[5:0]. -/
def wordCM (op : OpCode) (c0 c1 c2 c3 c4 c5 : Byte) (present : BitVec 6) : ReqWord :=
  op ++ (c5 ++ c4 ++ c3 ++ c2 ++ c1 ++ c0) ++ (0#26 ++ present)

/-- The request word of an instruction. -/
def encode : Instr → ReqWord
  | .add a b => wordBB 0x0 a b
  | .mulb a b => wordBB 0x1 a b
  | .mull a b => wordBB 0x2 a b
  | .mult a b => wordBB 0x3 a b
  | .mulp4 a b => wordWW 0x4 a b
  | .inv a => wordBB 0x5 a 0
  | .pow base exponent => wordBB 0x6 base exponent
  | .enc y0 y1 => wordBB 0x7 y0 y1
  | .dec c0 c1 c2 c3 c4 c5 present => wordCM 0x8 c0 c1 c2 c3 c4 c5 present

/-- The bits of the request word that OP's row of the opcode map names: OP itself and the operands of
R63. Every other bit is ignored (R67). A reserved code names OP alone (spec/60_exceptions.md R141). -/
def usedBits (op : OpCode) : ReqWord :=
  match op.toNat with
  | 0x4 => 0xF0000FFFFFFFFFFFFFFFF#84
  | 0x5 => 0xF0000000000FF00000000#84
  | 0x8 => 0xFFFFFFFFFFFFF0000003F#84
  | n => if n < 9 then 0xF0000000000FF000000FF#84 else 0xF00000000000000000000#84

/-- The request word whose bits are `w` as spec/opcode_table.json numbers them. The table's rows are 84
bits wide; a number given in whole bytes has four padding bits above bit 83, which no port carries and
which are dropped (DESIGN CHOICE, log 12). Bits at and above nbits are 0. -/
def tableWord (nbits w : Nat) : ReqWord := BitVec.ofNat 84 (w % 2 ^ nbits)

/-- What the decoder reads from that word; none where the code is reserved. -/
def decodeTableWord (nbits w : Nat) : Option Instr :=
  match decode (tableWord nbits w) with
  | .ok i => some i
  | .error _ => none

end Sys2Proof
end

