-- ==== Sys2Proof/Machine/Field.lean ====
section
/-! DEFINITION. The arithmetic of GF(256) with the reduction polynomial 0x11B: the carry-less product, its
reduction, the field product and the power (spec/40_field_arithmetic.md R81, R82, R84). -/

namespace Sys2Proof.Machine

/-- `zext_48`: a byte as DATA (spec/30_encoding.md R65). -/
def zext48 (r : Byte) : Data := r.setWidth 48

/-- R81: a shifted left by each set bit position of b, accumulated by XOR in 16 bits. -/
def clmul (a b : Byte) : BitVec 16 :=
  (List.range 8).foldl (fun p i => if b.getLsbD i then p ^^^ (a.setWidth 16 <<< i) else p) 0

/-- R82: the index of the highest 1 bit, plus one; 0 for 0. -/
def bitlen (p : BitVec 16) : Nat := if p = 0 then 0 else Nat.log2 p.toNat + 1

/-- R82's loop, with fuel: while the bit-length exceeds 8, XOR in the polynomial shifted so that its top
bit aligns with the product's. -/
def reduceLoop : Nat → BitVec 16 → BitVec 16
  | 0, p => p
  | fuel + 1, p =>
    if 8 < bitlen p then reduceLoop fuel (p ^^^ (0x11B#16 <<< (bitlen p - 9))) else p

/-- R82: reduction modulo 0x11B. Each turn of the loop shortens the value, so eight turns always reach a
bit-length of at most 8 from 16 bits. -/
def reduce (p : BitVec 16) : Byte := (reduceLoop 8 p).extractLsb' 0 8

/-- R82: the field product, "the authoritative definition of field multiplication". -/
def gfmul (a b : Byte) : Byte := reduce (clmul a b)

/-- R84's loop over a given multiply: `base` multiplied in `e` times, starting from 1. -/
def powWith (mul : Byte → Byte → Byte) (base : Byte) : Nat → Byte
  | 0 => 1
  | e + 1 => mul (powWith mul base e) base

/-- R84: the power by bitwise multiplies. -/
def pow (base : Byte) (e : Nat) : Byte := powWith gfmul base e

/-- The fixed generator (spec/00_scope.md R4, R5). -/
def generator : Byte := 3

end Sys2Proof.Machine
end

