-- ==== Sys2Proof/Machine/Tables.lean ====
section
/-! DEFINITION. The block's only memories: the four internal tables (spec/20_memory.md R40 to R43, R49),
their constant content (the listings R47, R48 and R113, and R42), reading and writing one entry, and
their construction (R45). A table's content is held as a list of (index, byte) cells in one canonical
form: indexes strictly rising, and no cell that equals the table's constant content at its index. A
table that holds exactly its constant content is therefore the empty list. -/

namespace Sys2Proof.Machine

/-- The number of entries of a table (R40 to R43). Index 255 of EXP does not exist. -/
def size : TableName → Nat
  | .exp => 255
  | .log => 256
  | .multab => 65536
  | .invtab => 256

/-! ### The listings -/

/-- R47: EXP[i], i = 0..254, sixteen entries a row. -/
def expListing : List (List Nat) :=
  [[0x01, 0x03, 0x05, 0x0F, 0x11, 0x33, 0x55, 0xFF, 0x1A, 0x2E, 0x72, 0x96, 0xA1, 0xF8, 0x13, 0x35],
   [0x5F, 0xE1, 0x38, 0x48, 0xD8, 0x73, 0x95, 0xA4, 0xF7, 0x02, 0x06, 0x0A, 0x1E, 0x22, 0x66, 0xAA],
   [0xE5, 0x34, 0x5C, 0xE4, 0x37, 0x59, 0xEB, 0x26, 0x6A, 0xBE, 0xD9, 0x70, 0x90, 0xAB, 0xE6, 0x31],
   [0x53, 0xF5, 0x04, 0x0C, 0x14, 0x3C, 0x44, 0xCC, 0x4F, 0xD1, 0x68, 0xB8, 0xD3, 0x6E, 0xB2, 0xCD]]
  ++ [[0x4C, 0xD4, 0x67, 0xA9, 0xE0, 0x3B, 0x4D, 0xD7, 0x62, 0xA6, 0xF1, 0x08, 0x18, 0x28, 0x78, 0x88],
   [0x83, 0x9E, 0xB9, 0xD0, 0x6B, 0xBD, 0xDC, 0x7F, 0x81, 0x98, 0xB3, 0xCE, 0x49, 0xDB, 0x76, 0x9A],
   [0xB5, 0xC4, 0x57, 0xF9, 0x10, 0x30, 0x50, 0xF0, 0x0B, 0x1D, 0x27, 0x69, 0xBB, 0xD6, 0x61, 0xA3],
   [0xFE, 0x19, 0x2B, 0x7D, 0x87, 0x92, 0xAD, 0xEC, 0x2F, 0x71, 0x93, 0xAE, 0xE9, 0x20, 0x60, 0xA0]]
  ++ [[0xFB, 0x16, 0x3A, 0x4E, 0xD2, 0x6D, 0xB7, 0xC2, 0x5D, 0xE7, 0x32, 0x56, 0xFA, 0x15, 0x3F, 0x41],
   [0xC3, 0x5E, 0xE2, 0x3D, 0x47, 0xC9, 0x40, 0xC0, 0x5B, 0xED, 0x2C, 0x74, 0x9C, 0xBF, 0xDA, 0x75],
   [0x9F, 0xBA, 0xD5, 0x64, 0xAC, 0xEF, 0x2A, 0x7E, 0x82, 0x9D, 0xBC, 0xDF, 0x7A, 0x8E, 0x89, 0x80],
   [0x9B, 0xB6, 0xC1, 0x58, 0xE8, 0x23, 0x65, 0xAF, 0xEA, 0x25, 0x6F, 0xB1, 0xC8, 0x43, 0xC5, 0x54]]
  ++ [[0xFC, 0x1F, 0x21, 0x63, 0xA5, 0xF4, 0x07, 0x09, 0x1B, 0x2D, 0x77, 0x99, 0xB0, 0xCB, 0x46, 0xCA],
   [0x45, 0xCF, 0x4A, 0xDE, 0x79, 0x8B, 0x86, 0x91, 0xA8, 0xE3, 0x3E, 0x42, 0xC6, 0x51, 0xF3, 0x0E],
   [0x12, 0x36, 0x5A, 0xEE, 0x29, 0x7B, 0x8D, 0x8C, 0x8F, 0x8A, 0x85, 0x94, 0xA7, 0xF2, 0x0D, 0x17],
   [0x39, 0x4B, 0xDD, 0x7C, 0x84, 0x97, 0xA2, 0xFD, 0x1C, 0x24, 0x6C, 0xB4, 0xC7, 0x52, 0xF6]]

/-- R48: LOG[v], v = 1..255 (the listing has no LOG[0]), in decimal. -/
def logListing : List (List Nat) :=
  [[0, 25, 1, 50, 2, 26, 198, 75, 199, 27, 104, 51, 238, 223, 3],
   [100, 4, 224, 14, 52, 141, 129, 239, 76, 113, 8, 200, 248, 105, 28, 193],
   [125, 194, 29, 181, 249, 185, 39, 106, 77, 228, 166, 114, 154, 201, 9, 120],
   [101, 47, 138, 5, 33, 15, 225, 36, 18, 240, 130, 69, 53, 147, 218, 142]]
  ++ [[150, 143, 219, 189, 54, 208, 206, 148, 19, 92, 210, 241, 64, 70, 131, 56],
   [102, 221, 253, 48, 191, 6, 139, 98, 179, 37, 226, 152, 34, 136, 145, 16],
   [126, 110, 72, 195, 163, 182, 30, 66, 58, 107, 40, 84, 250, 133, 61, 186],
   [43, 121, 10, 21, 155, 159, 94, 202, 78, 212, 172, 229, 243, 115, 167, 87]]
  ++ [[175, 88, 168, 80, 244, 234, 214, 116, 79, 174, 233, 213, 231, 230, 173, 232],
   [44, 215, 117, 122, 235, 22, 11, 245, 89, 203, 95, 176, 156, 169, 81, 160],
   [127, 12, 246, 111, 23, 196, 73, 236, 216, 67, 31, 45, 164, 118, 123, 183],
   [204, 187, 62, 90, 251, 96, 177, 134, 59, 82, 161, 108, 170, 85, 41, 157]]
  ++ [[151, 178, 135, 144, 97, 190, 220, 252, 188, 149, 207, 205, 55, 63, 91, 209],
   [83, 57, 132, 60, 65, 162, 109, 71, 20, 42, 158, 93, 86, 242, 211, 171],
   [68, 17, 146, 217, 35, 32, 46, 137, 180, 124, 184, 38, 119, 153, 227, 165],
   [103, 74, 237, 222, 197, 49, 254, 24, 13, 99, 140, 128, 192, 247, 112, 7]]

/-- R113: INV(a), a = 0..255; "this is also the content of INVTAB". -/
def invListing : List (List Nat) :=
  [[0x01, 0x01, 0x8D, 0xF6, 0xCB, 0x52, 0x7B, 0xD1, 0xE8, 0x4F, 0x29, 0xC0, 0xB0, 0xE1, 0xE5, 0xC7],
   [0x74, 0xB4, 0xAA, 0x4B, 0x99, 0x2B, 0x60, 0x5F, 0x58, 0x3F, 0xFD, 0xCC, 0xFF, 0x40, 0xEE, 0xB2],
   [0x3A, 0x6E, 0x5A, 0xF1, 0x55, 0x4D, 0xA8, 0xC9, 0xC1, 0x0A, 0x98, 0x15, 0x30, 0x44, 0xA2, 0xC2],
   [0x2C, 0x45, 0x92, 0x6C, 0xF3, 0x39, 0x66, 0x42, 0xF2, 0x35, 0x20, 0x6F, 0x77, 0xBB, 0x59, 0x19]]
  ++ [[0x1D, 0xFE, 0x37, 0x67, 0x2D, 0x31, 0xF5, 0x69, 0xA7, 0x64, 0xAB, 0x13, 0x54, 0x25, 0xE9, 0x09],
   [0xED, 0x5C, 0x05, 0xCA, 0x4C, 0x24, 0x87, 0xBF, 0x18, 0x3E, 0x22, 0xF0, 0x51, 0xEC, 0x61, 0x17],
   [0x16, 0x5E, 0xAF, 0xD3, 0x49, 0xA6, 0x36, 0x43, 0xF4, 0x47, 0x91, 0xDF, 0x33, 0x93, 0x21, 0x3B],
   [0x79, 0xB7, 0x97, 0x85, 0x10, 0xB5, 0xBA, 0x3C, 0xB6, 0x70, 0xD0, 0x06, 0xA1, 0xFA, 0x81, 0x82]]
  ++ [[0x83, 0x7E, 0x7F, 0x80, 0x96, 0x73, 0xBE, 0x56, 0x9B, 0x9E, 0x95, 0xD9, 0xF7, 0x02, 0xB9, 0xA4],
   [0xDE, 0x6A, 0x32, 0x6D, 0xD8, 0x8A, 0x84, 0x72, 0x2A, 0x14, 0x9F, 0x88, 0xF9, 0xDC, 0x89, 0x9A],
   [0xFB, 0x7C, 0x2E, 0xC3, 0x8F, 0xB8, 0x65, 0x48, 0x26, 0xC8, 0x12, 0x4A, 0xCE, 0xE7, 0xD2, 0x62],
   [0x0C, 0xE0, 0x1F, 0xEF, 0x11, 0x75, 0x78, 0x71, 0xA5, 0x8E, 0x76, 0x3D, 0xBD, 0xBC, 0x86, 0x57]]
  ++ [[0x0B, 0x28, 0x2F, 0xA3, 0xDA, 0xD4, 0xE4, 0x0F, 0xA9, 0x27, 0x53, 0x04, 0x1B, 0xFC, 0xAC, 0xE6],
   [0x7A, 0x07, 0xAE, 0x63, 0xC5, 0xDB, 0xE2, 0xEA, 0x94, 0x8B, 0xC4, 0xD5, 0x9D, 0xF8, 0x90, 0x6B],
   [0xB1, 0x0D, 0xD6, 0xEB, 0xC6, 0x0E, 0xCF, 0xAD, 0x08, 0x4E, 0xD7, 0xE3, 0x5D, 0x50, 0x1E, 0xB3],
   [0x5B, 0x23, 0x38, 0x34, 0x68, 0x46, 0x03, 0x8C, 0xDD, 0x9C, 0x7D, 0xA0, 0xCD, 0x1A, 0x41, 0x1C]]

/-- R40: the constant EXP. -/
def expConst : Vector Byte 255 := ⟨⟨expListing.flatten.map (BitVec.ofNat 8)⟩, by decide +kernel⟩

/-- R41: the constant LOG; LOG[0] is unspecified, a free value (log 5). -/
def logConst : Vector Byte 256 :=
  ⟨⟨Config.logZero :: logListing.flatten.map (BitVec.ofNat 8)⟩, by
    simp only [List.size_toArray, List.length_cons]; decide +kernel⟩

/-- R43: the constant INVTAB. -/
def invConst : Vector Byte 256 := ⟨⟨invListing.flatten.map (BitVec.ofNat 8)⟩, by decide +kernel⟩

/-- R42: the constant MULTAB at the 16-bit index {a, b} = a·256 + b: the product of the index's two bytes. -/
def mulConst (i : Nat) : Byte := gfmul (BitVec.ofNat 8 (i / 256)) (BitVec.ofNat 8 i)

/-- The content of each table as the spec defines it (R40 to R43): what an index that a table's list
does not mention reads as. -/
def constByte : (t : TableName) → Fin (size t) → Byte
  | .exp, i => expConst[i.val]'i.isLt
  | .log, i => logConst[i.val]'i.isLt
  | .multab, i => mulConst i.val
  | .invtab, i => invConst[i.val]'i.isLt

/-! ### Table memory -/

/-- The content of one table. -/
abbrev Memory := List Host.Cell

/-- One read (R13: "a read has no side effect"). An index outside the table does not exist and cannot be
asked for. -/
def Memory.read (t : TableName) (m : Memory) (i : Fin (size t)) : Byte :=
  match m.lookup i.val with
  | some v => v
  | none => constByte t i

/-- Put a cell in its place, over a cell at the same index. -/
def Memory.insert (i : Nat) (v : Byte) : Memory → Memory
  | [] => [(i, v)]
  | c :: m =>
    if i < c.1 then (i, v) :: c :: m
    else if i = c.1 then (i, v) :: m
    else c :: Memory.insert i v m

/-- One write, which keeps the canonical form: the constant content is not listed. -/
def Memory.write (t : TableName) (m : Memory) (i : Fin (size t)) (v : Byte) : Memory :=
  if v = constByte t i then m.filter (fun c => c.1 != i.val) else Memory.insert i.val v m

/-- A cell a table may list: an index it has, at a byte that is not the constant content there. -/
def cellOk (t : TableName) (c : Host.Cell) : Bool :=
  if h : c.1 < size t then c.2 != constByte t ⟨c.1, h⟩ else false

/-- The canonical form. -/
def Memory.wf (t : TableName) (m : Memory) : Bool :=
  decide (m.Pairwise (fun c d => c.1 < d.1)) && m.all (cellOk t)

/-- The canonical memory that holds `f` at every index of a table. -/
def Memory.ofFn (t : TableName) (f : Nat → Byte) : Memory :=
  ((List.range (size t)).map (fun i => (i, f i))).filter (cellOk t)

/-- The four tables of the block (spec/10_state.md R27). -/
structure Tables where
  exp : Memory
  log : Memory
  multab : Memory
  invtab : Memory
  deriving DecidableEq, Repr

/-- All four in canonical form. -/
def Tables.wf (t : Tables) : Bool :=
  t.exp.wf .exp && t.log.wf .log && t.multab.wf .multab && t.invtab.wf .invtab

/-- EXP[i], i = 0..254. -/
def Tables.readExp (t : Tables) (i : Fin 255) : Byte := t.exp.read .exp i

/-- LOG[v]. -/
def Tables.readLog (t : Tables) (v : Byte) : Byte := t.log.read .log v.toFin

/-- MULTAB[a][b], at the 16-bit index {a, b} (R42). -/
def Tables.readMul (t : Tables) (a b : Byte) : Byte := t.multab.read .multab (a ++ b).toFin

/-- INVTAB[a]. -/
def Tables.readInv (t : Tables) (a : Byte) : Byte := t.invtab.read .invtab a.toFin

/-- Tables in ROM hold their constant content from reset on (R45). -/
def Tables.rom : Tables := ⟨[], [], [], []⟩

/-- Tables whose content is unspecified: the free values of the n-th edge (spec/10_state.md R34). -/
def Tables.unbuilt (n : Nat) : Tables where
  exp := Memory.ofFn .exp (Config.unbuiltByte n .exp)
  log := Memory.ofFn .log (Config.unbuiltByte n .log)
  multab := Memory.ofFn .multab (Config.unbuiltByte n .multab)
  invtab := Memory.ofFn .invtab (Config.unbuiltByte n .invtab)

/-! ### Construction (R44, R45) -/

/-- An exponent reduced to an index of EXP. -/
def expIndex (n : Nat) : Fin 255 := ⟨n % 255, Nat.mod_lt _ (by decide)⟩

/-- R45's first loop, one turn: EXP[i] and LOG[3^i]. -/
def buildExpLog (t : Tables) (i : Fin 255) : Tables :=
  { t with
    exp := t.exp.write .exp i (pow generator i.val)
    log := t.log.write .log (pow generator i.val).toFin (BitVec.ofNat 8 i.val) }

/-- R45's second loop, one turn of the inner loop: MULTAB[a][b] at the index {a, b}. -/
def buildMul (t : Tables) (a b : Byte) : Tables :=
  { t with multab := t.multab.write .multab (a ++ b).toFin (gfmul a b) }

/-- R45's third loop, one turn: INVTAB[a] from EXP and LOG; INVTAB[0] is set to 1. -/
def buildInv (t : Tables) (a : Byte) : Tables :=
  { t with
    invtab := t.invtab.write .invtab a.toFin
      (if a = 0 then 1 else t.readExp (expIndex (255 - (t.readLog a).toNat))) }

/-- All bytes in rising order. -/
def allBytes : List Byte := (List.range 256).map (BitVec.ofNat 8)

/-- R45: the procedure. LOG[0] is not written and keeps its content. -/
def Tables.build (t : Tables) : Tables :=
  let t := (List.finRange 255).foldl buildExpLog t
  let t := allBytes.foldl (fun t a => allBytes.foldl (fun t b => buildMul t a b) t) t
  allBytes.foldl buildInv t

end Sys2Proof.Machine
end

