-- ==== Sys2Proof/Machine/State.lean ====
section
/-! DEFINITION. The state of GF256-CORE (spec/10_state.md R27: the four tables, init_done, the queue Q), the
host's side of the ports as plain data, the reasons a step can stop, and the state after reset (R34). -/

namespace Sys2Proof.Machine

/-- An entry of Q (R27): a response waiting to be taken, the code of its request, and its age in edges. -/
structure Entry where
  status : Status
  data : Data
  op : OpCode
  age : Nat
  deriving DecidableEq, Repr

/-- The values of the input ports sampled at one rising edge of clk (R21, R22). -/
structure Pins where
  rst : Bool
  reqValid : Bool
  reqOp : OpCode
  reqA : BitVec 48
  reqB : BitVec 32
  rspReady : Bool
  deriving DecidableEq, Repr

/-- What happens at a rising edge on the block's ports: a reset edge (R160), a request that transfers
(R23), a response that transfers (R25). -/
inductive Event where
  | reset
  | accepted (r : Request)
  | delivered (r : Response)
  deriving DecidableEq, Repr

/-- The state. `tables`, `initDone`, `initCount` and `q` are the block's (R27, and R162 for the count);
`params` are its parameters (spec/00_scope.md R9), which no step changes; `pins` and `trace` are the
host's side of the ports; `freeCount` only picks fresh free values (log 1, 2, 3, 7). -/
structure State where
  params : Params
  /-- EXP, LOG, MULTAB, INVTAB. -/
  tables : Tables
  /-- init_done. -/
  initDone : Bool
  /-- consecutive rising edges with rst = 0 that the initialiser has counted (R162). -/
  initCount : Nat
  /-- Q, oldest entry first. -/
  q : List Entry
  /-- the input samples of the coming edges, the next one first. -/
  pins : List Pins
  /-- what has happened on the ports, the latest first. -/
  trace : List Event
  /-- edges seen. -/
  freeCount : Nat
  deriving DecidableEq, Repr

/-- Why the machine stops: it never does. Every request gets a response (R26, R62), the two errors are
responses like any other (spec/60_exceptions.md R145), and a hold is a wait (R147). No constructor: safe,
since nothing the block does is left out by a stop (log 10). -/
inductive Fault where
  deriving DecidableEq, Repr

/-- Why an instruction is refused. -/
inductive Refusal where
  /-- raised by an arm of exec whose instruction has no meaning yet; no arm raises it. Safe. -/
  | notModelled (mnemonic : String)
  deriving DecidableEq, Repr

/-- The tables right after an edge that samples rst = 1: ROM holds its content, BUILD's is unspecified
(R34). -/
def Tables.afterReset (impl : TableImpl) (n : Nat) : Tables :=
  match impl with
  | .rom => .rom
  | .build => .unbuilt n

/-- The block with parameters `p` right after an edge that samples rst = 1 (R34, R160). -/
def State.resetWith (p : Params) : State where
  params := p
  tables := Tables.afterReset p.tableImpl 0
  initDone := false
  initCount := 0
  q := []
  pins := []
  trace := []
  freeCount := 0

/-- The machine right after reset, with the parameters of the spec's Program 4 (log 1). -/
def State.reset : State := State.resetWith Params.program4

end Sys2Proof.Machine
end

