-- ==== Sys2Proof/Machine/Operands.lean ====
section
/-! DEFINITION. Operands inside their words: lanes, codeword symbols, the present mask, and the placement
of results in DATA (spec/20_memory.md R51, spec/30_encoding.md R63 to R65). Everything is unsigned and
little-endian. The bits an operand comes from in the request word are Decode.lean's. -/

namespace Sys2Proof.Machine

/-- Lane k of a packed word: bits [8k+7:8k] (R51, R100). -/
def lane (w : Packed) (k : Nat) : Byte := w.extractLsb' (8 * k) 8

/-- Four lanes as a packed word, lane 0 the least significant byte. -/
def packLanes (r0 r1 r2 r3 : Byte) : Packed := r3 ++ r2 ++ r1 ++ r0

/-- The packed result as DATA: [31:0], the rest 0 (R65). -/
def packedData (r : Packed) : Data := r.setWidth 48

/-- Codeword position x of DATA: bits [8x+7:8x] (R51, R65). -/
def symbol (d : Data) (x : Nat) : Byte := d.extractLsb' (8 * x) 8

/-- Six symbols as DATA, position x in byte x (R65, R120). -/
def packSymbols (c0 c1 c2 c3 c4 c5 : Byte) : Data := c5 ++ c4 ++ c3 ++ c2 ++ c1 ++ c0

/-- The DEC result as DATA: y0 in [7:0], y1 in [15:8], the rest 0 (R65). -/
def pairData (y : Byte × Byte) : Data := (y.2 ++ y.1).setWidth 48

/-- An evaluation point as a field element: "the integer x is the byte with value x" (R13). -/
def point (x : Fin 6) : Byte := BitVec.ofNat 8 x.val

/-- A codeword: the symbols at positions 0 to 5 (spec/00_scope.md R14). -/
abbrev Codeword := Vector Byte 6

/-- The positions marked present, in rising order (R123: "ascending"). -/
def presentPositions (present : BitVec 6) : List (Fin 6) :=
  (List.finRange 6).filter (fun x => present.getLsbD x.val)

/-- The number of 1 bits (R13). -/
def popcount (present : BitVec 6) : Nat := (presentPositions present).length

end Sys2Proof.Machine
end

