-- ==== Sys2Proof/Machine/Flags.lean ====
section
/-! DEFINITION. The block has no flags and no status register (spec/10_state.md R31). Its only condition
report is the STATUS field of a response (spec/60_exceptions.md R140), whose codes stand here, and the
condition that raises each error. -/

namespace Sys2Proof.Machine

/-- The STATUS codes (R140). Code 3 is reserved and never produced. -/
def statusCode : Status → BitVec 2
  | .ok => 0
  | .illegalOp => 1
  | .insufficientSymbols => 2

/-- The response word {STATUS, DATA} (spec/30_encoding.md R61). -/
def responseWord (r : Response) : RspWord := statusCode r.status ++ r.data

/-- The errors that `raise` can name (R140). -/
inductive Error where
  | illegalOp
  | insufficientSymbols
  deriving DecidableEq, Repr

/-- The STATUS of an error. -/
def errorStatus : Error → Status
  | .illegalOp => .illegalOp
  | .insufficientSymbols => .insufficientSymbols

/-- A reserved code (spec/30_encoding.md R68). -/
def reservedOp (op : OpCode) : Bool := decide (9 ≤ op.toNat)

/-- DEC's error condition (R142): zero or one present position. -/
def insufficient (present : BitVec 6) : Bool := decide (popcount present < 2)

end Sys2Proof.Machine
end

