-- ==== Sys2Proof/Machine/Ops.lean ====
section
/-! DEFINITION. The operations the meanings share: the table strategies of the multiply and the inverse,
the parameters' choice among them, completing a request with a response, and completing it with an error.

An error is the block's whole exception mechanism (spec/60_exceptions.md R145): an error response is
queued and delivered like an OK response; nothing is saved, no mode changes, no control transfers, and
there is no return from one. -/

namespace Sys2Proof.Machine

/-! ### Strategies -/

/-- The log/antilog multiply (spec/40_field_arithmetic.md R86). A zero operand gives 0 without reading
LOG. "Reduce the sum modulo 255": of a sum up to 508 this is R86's one conditional subtraction
(log 11). -/
def mulLog (t : Tables) (a b : Byte) : Byte :=
  if a = 0 ∨ b = 0 then 0
  else t.readExp (expIndex ((t.readLog a).toNat + (t.readLog b).toNat))

/-- The full-table multiply (R88). -/
def mulTable (t : Tables) (a b : Byte) : Byte := t.readMul a b

/-- The multiply that MUL_IMPL selects (spec/00_scope.md R9, R10). -/
def mulBy (impl : MulImpl) (t : Tables) (a b : Byte) : Byte :=
  match impl with
  | .bitwise => gfmul a b
  | .log => mulLog t a b
  | .table => mulTable t a b

/-- The inverse by logarithm (spec/42_inverse.md R110): the index is (255 − L) mod 255. -/
def invLog (t : Tables) (a : Byte) : Byte :=
  if a = 0 then 1 else t.readExp (expIndex (255 - (t.readLog a).toNat))

/-- The inverse by table (R111). -/
def invTable (t : Tables) (a : Byte) : Byte := t.readInv a

/-- The inverse by Fermat's theorem, a^254, with a = 0 apart (R111). -/
def invFermat (mul : Byte → Byte → Byte) (a : Byte) : Byte :=
  if a = 0 then 1 else powWith mul a 254

/-- The inverse that INV_IMPL selects (R111); its multiplies are MUL_IMPL's (R9). -/
def invBy (impl : InvImpl) (mul : Byte → Byte → Byte) (t : Tables) (a : Byte) : Byte :=
  match impl with
  | .log => invLog t a
  | .table => invTable t a
  | .fermat => invFermat mul a

/-- The multiply this block uses inside MULP4, INV, ENC and DEC. -/
def State.mul (s : State) (a b : Byte) : Byte := mulBy s.params.mulImpl s.tables a b

/-- The inverse this block uses in INV and DEC. -/
def State.inv (s : State) (a : Byte) : Byte := invBy s.params.invImpl s.mul s.tables a

/-! ### Completing a request -/

/-- Append an entry to the tail of Q (spec/10_state.md R28). -/
def State.push (s : State) (e : Entry) : State := { s with q := s.q ++ [e] }

/-- `respond(st, d)` for a request with code `op` (R13): its entry, of age 0, joins Q (R28). -/
def respond (op : OpCode) (st : Status) (d : Data) (s : State) : Host.Outcome State Fault Refusal :=
  .next (s.push ⟨st, d, op, 0⟩)

/-- `raise E()`, which is `respond(code(E), 0)` (R13, R140): no partial result and no other information
(R146). -/
def raise (op : OpCode) (e : Error) (s : State) : Host.Outcome State Fault Refusal :=
  respond op (errorStatus e) 0 s

end Sys2Proof.Machine
end

