-- ==== Sys2Proof/Machine/Arith.lean ====
section
/-! DEFINITION. The meanings of ADD, MULB, MULL, MULT and POW (spec/40_field_arithmetic.md). A meaning is
the acceptance of its request: the evaluation R62 gives, and the response's entry joining Q (R28). -/

namespace Sys2Proof.Machine

/-- ADD (R80): bitwise exclusive OR. -/
def execAdd (a b : Byte) (s : State) : Host.Outcome State Fault Refusal :=
  respond 0x0 .ok (zext48 (a ^^^ b)) s

/-- MULB (R83): the bitwise multiply. -/
def execMulb (a b : Byte) (s : State) : Host.Outcome State Fault Refusal :=
  respond 0x1 .ok (zext48 (gfmul a b)) s

/-- MULL (R86): the log/antilog multiply. -/
def execMull (a b : Byte) (s : State) : Host.Outcome State Fault Refusal :=
  respond 0x2 .ok (zext48 (mulLog s.tables a b)) s

/-- MULT (R88): a single lookup in MULTAB. -/
def execMult (a b : Byte) (s : State) : Host.Outcome State Fault Refusal :=
  respond 0x3 .ok (zext48 (mulTable s.tables a b)) s

/-- POW (R84): "repeated application of multiplyBitwise, exponent times, starting from 1". -/
def execPow (base exponent : Byte) (s : State) : Host.Outcome State Fault Refusal :=
  respond 0x6 .ok (zext48 (pow base exponent.toNat)) s

end Sys2Proof.Machine
end

