-- ==== Sys2Proof/Machine/Erasure.lean ====
section
/-! DEFINITION. The meanings of ENC and DEC, the (2,6) erasure code (spec/43_erasure_code.md). -/

namespace Sys2Proof.Machine

/-- R120: the symbol at position x. -/
def encodeSymbol (mul : Byte → Byte → Byte) (y0 y1 : Byte) (x : Fin 6) : Byte :=
  mul y0 (point x ^^^ 1) ^^^ mul y1 (point x)

/-- R120: the six symbols, position x in byte x. -/
def encodePair (mul : Byte → Byte → Byte) (y0 y1 : Byte) : Data :=
  packSymbols (encodeSymbol mul y0 y1 0) (encodeSymbol mul y0 y1 1) (encodeSymbol mul y0 y1 2)
    (encodeSymbol mul y0 y1 3) (encodeSymbol mul y0 y1 4) (encodeSymbol mul y0 y1 5)

/-- R123: Cramer's rule on the symbols v0 at x0 and v1 at x1. -/
def solvePair (mul : Byte → Byte → Byte) (inv : Byte → Byte) (x0 x1 v0 v1 : Byte) : Byte × Byte :=
  let dxInv := inv (x0 ^^^ x1)
  (mul (mul v0 x1 ^^^ mul v1 x0) dxInv, mul (mul v0 (x1 ^^^ 1) ^^^ mul v1 (x0 ^^^ 1)) dxInv)

/-- R123: decode from the two lowest present positions; none where there are fewer than two. -/
def decodePair (mul : Byte → Byte → Byte) (inv : Byte → Byte) (cw : Codeword) (present : BitVec 6) :
    Option (Byte × Byte) :=
  match presentPositions present with
  | x0 :: x1 :: _ => some (solvePair mul inv (point x0) (point x1) cw[x0] cw[x1])
  | _ => none

/-- ENC (R120). -/
def execEnc (y0 y1 : Byte) (s : State) : Host.Outcome State Fault Refusal :=
  respond 0x7 .ok (encodePair s.mul y0 y1) s

/-- DEC (R123). -/
def execDec (c0 c1 c2 c3 c4 c5 : Byte) (present : BitVec 6) (s : State) :
    Host.Outcome State Fault Refusal :=
  match decodePair s.mul s.inv #v[c0, c1, c2, c3, c4, c5] present with
  | some y => respond 0x8 .ok (pairData y) s
  | none => raise 0x8 .insufficientSymbols s

end Sys2Proof.Machine
end

