-- ==== Sys2Proof/Machine/Inverse.lean ====
section
/-! DEFINITION. The meaning of INV (spec/42_inverse.md R110, R111). -/

namespace Sys2Proof.Machine

/-- INV (R110): the inverse by INV_IMPL's method; INV(0) = 1 with STATUS OK. -/
def execInv (a : Byte) (s : State) : Host.Outcome State Fault Refusal :=
  respond 0x5 .ok (zext48 (s.inv a)) s

end Sys2Proof.Machine
end

