-- ==== Sys2Proof/Machine/PackedOps.lean ====
section
/-! DEFINITION. The meaning of MULP4 (spec/41_packed.md R100). -/

namespace Sys2Proof.Machine

/-- R100: multiply lane by lane, "reassemble into a 32-bit result preserving lane order". -/
def mulLanes (mul : Byte → Byte → Byte) (a b : Packed) : Packed :=
  packLanes (mul (lane a 0) (lane b 0)) (mul (lane a 1) (lane b 1))
    (mul (lane a 2) (lane b 2)) (mul (lane a 3) (lane b 3))

/-- MULP4 (R100), its lanes multiplied by MUL_IMPL's method. -/
def execMulp4 (a b : Packed) (s : State) : Host.Outcome State Fault Refusal :=
  respond 0x4 .ok (packedData (mulLanes s.mul a b)) s

end Sys2Proof.Machine
end

