-- ==== Sys2Proof/Machine/Dispatch.lean ====
section
/-! DEFINITION. One arm for each instruction (spec/30_encoding.md R62): each is a call of its meaning. -/

namespace Sys2Proof.Machine

def exec (i : Instr) (s : State) : Host.Outcome State Fault Refusal :=
  match i with
  | .add a b => Sys2Proof.Machine.execAdd a b s
  | .mulb a b => Sys2Proof.Machine.execMulb a b s
  | .mull a b => Sys2Proof.Machine.execMull a b s
  | .mult a b => Sys2Proof.Machine.execMult a b s
  | .mulp4 a b => Sys2Proof.Machine.execMulp4 a b s
  | .inv a => Sys2Proof.Machine.execInv a s
  | .pow base exponent => Sys2Proof.Machine.execPow base exponent s
  | .enc y0 y1 => Sys2Proof.Machine.execEnc y0 y1 s
  | .dec c0 c1 c2 c3 c4 c5 present => Sys2Proof.Machine.execDec c0 c1 c2 c3 c4 c5 present s

end Sys2Proof.Machine
end

