-- ==== Sys2Proof/Machine/Channel.lean ====
section
/-! DEFINITION. The ports and one rising edge of clk: the outputs, the handshakes, the ageing of Q, the
initialiser and reset (spec/10_state.md R22 to R28 and R34, spec/70_reset_and_hazards.md R160 to R162),
and what a transferred request sets going (spec/30_encoding.md R62). -/

namespace Sys2Proof.Machine

/-! ### Outputs: functions of the state only (R22)

Before the first reset edge after power-up the spec leaves every output unspecified
(spec/70_reset_and_hazards.md R164). DESIGN CHOICE (log 20): the model has no separate case for that time
and gives each output there by the same rules, from whatever state the block is in. -/

/-- An entry is ripe when its age is at least LAT(op) − 1 (R28). -/
def Entry.ripe (p : Params) (e : Entry) : Bool := decide (p.latOf e.op - 1 ≤ e.age)

/-- The response an entry holds. -/
def Entry.response (e : Entry) : Response := ⟨e.status, e.data⟩

/-- The response on offer: the head of Q, if it is ripe (R28). -/
def State.offered (s : State) : Option Response :=
  match s.q with
  | [] => none
  | e :: _ => if e.ripe s.params then some e.response else none

/-- The rsp_valid output (R28). Before the first reset edge too: DESIGN CHOICE (log 20). -/
def State.rspValid (s : State) : Bool := s.offered.isSome

/-- {rsp_status, rsp_data}: the offered response, and unspecified while rsp_valid = 0 (R25, R28). Before
the first reset edge too: DESIGN CHOICE (log 20). -/
def State.rspWord (s : State) : RspWord :=
  match s.offered with
  | some r => responseWord r
  | none => Config.idleResponse s.freeCount

/-- The rsp_status output. -/
def State.rspStatus (s : State) : BitVec 2 := s.rspWord.extractLsb' 48 2

/-- The rsp_data output. -/
def State.rspData (s : State) : Data := s.rspWord.extractLsb' 0 48

/-- The req_ready output (R24): initialised, and fewer than MAX_OUTSTANDING entries in Q. Before the first
reset edge too, where R164 lets it be any value: DESIGN CHOICE (log 20). -/
def State.reqReady (s : State) : Bool := s.initDone && decide (s.q.length < s.params.maxOutstanding)

/-- The init_done output. Before the first reset edge too: DESIGN CHOICE (log 20). -/
def State.initDoneOut (s : State) : Bool := s.initDone

/-! ### Inputs -/

/-- Nothing driven: every input low. -/
def Pins.idle : Pins := ⟨false, false, 0, 0, 0, false⟩

/-- The input samples of the next edge: the first of `pins`, and all inputs low once the host has said
everything (DESIGN CHOICE, log 2). -/
def State.nextPins (s : State) : Pins := s.pins.headD Pins.idle

/-- The request on the request port. -/
def Pins.request (p : Pins) : Request := ⟨p.reqOp, p.reqA, p.reqB⟩

/-- A request transfers at an edge (R23; the ready output is that of the cycle before the edge, R24, D36). -/
def State.accepts (s : State) (p : Pins) : Bool := !p.rst && p.reqValid && s.reqReady

/-- The response that transfers at an edge (R25). -/
def State.delivers (s : State) (p : Pins) : Option Response :=
  if !p.rst && p.rspReady then s.offered else none

/-! ### The edge -/

/-- A reset edge (R160): Q is emptied, init_done cleared, initialisation restarted; BUILD's table content
is unspecified from here (R34). Nothing transfers (D35). -/
def State.resetEdge (s : State) : State :=
  { s with
    tables := match s.params.tableImpl with
      | .rom => s.tables
      | .build => .unbuilt s.freeCount
    initDone := false
    initCount := 0
    q := []
    pins := s.pins.tail
    trace := .reset :: s.trace
    freeCount := s.freeCount + 1 }

/-- One edge more in an entry's age (R28). -/
def Entry.older (e : Entry) : Entry := { e with age := e.age + 1 }

/-- init_done rises at this edge: it is the (INIT_CYCLES + 1)-th consecutive one that samples rst = 0
(R162). -/
def State.initRises (s : State) : Bool :=
  !s.initDone && decide (s.params.initCycles + 1 ≤ s.initCount + 1)

/-- The tables when initialisation ends: ROM runs no procedure, BUILD leaves R45's result (R162). -/
def Tables.finish (impl : TableImpl) (t : Tables) : Tables :=
  match impl with
  | .rom => t
  | .build => t.build

/-- The tables after an edge that samples rst = 0. Before the end of BUILD their content is unspecified
(R34); after it they are read-only (R30). -/
def State.nextTables (s : State) : Tables :=
  if s.initDone then s.tables
  else if s.initRises then s.tables.finish s.params.tableImpl
  else match s.params.tableImpl with
    | .rom => s.tables
    | .build => .unbuilt s.freeCount

/-- The initialiser's part of an edge with rst = 0 (R162). -/
def State.initEdge (s : State) : State :=
  { s with
    tables := s.nextTables
    initDone := s.initDone || s.initRises
    initCount := if s.initDone then s.initCount else s.initCount + 1 }

/-- The response channel's part of an edge with rst = 0: a transferring response leaves Q, and every
entry still in Q ages (R25, R28). -/
def State.rspEdge (s : State) (p : Pins) : State :=
  match s.delivers p with
  | some r => { s with q := s.q.tail.map Entry.older, trace := .delivered r :: s.trace }
  | none => { s with q := s.q.map Entry.older }

/-- Everything an edge with rst = 0 does but for the request channel: the response channel, the
initialiser, and the host's next sample. -/
def State.quietEdge (s : State) (p : Pins) : State :=
  let s' := (s.rspEdge p).initEdge
  { s' with pins := s.pins.tail, freeCount := s.freeCount + 1 }

/-- The record of an accepted request. -/
def State.noteAccepted (s : State) (r : Request) : State := { s with trace := .accepted r :: s.trace }

/-- A reserved code: accepted, and answered ILLEGAL_OP with DATA 0 (spec/60_exceptions.md R141). -/
def execReserved (op : OpCode) (s : State) : Host.Outcome State Fault Refusal := raise op .illegalOp s

/-- What a transferred request sets going (spec/30_encoding.md R62). -/
def execRequest (r : Request) (s : State) : Host.Outcome State Fault Refusal :=
  match decode r.word with
  | .ok i => exec i s
  | .error (.reservedOp op) => execReserved op s

/-- One rising edge of clk with the input samples `p`. A request's entry joins Q with age 0 after the
response channel has moved, so the two channels can transfer at one edge (D36). An edge with rst = 0
before the first reset edge runs like any other: DESIGN CHOICE (log 20). -/
def edge (p : Pins) (s : State) : Host.Outcome State Fault Refusal :=
  if p.rst then .next s.resetEdge
  else if s.accepts p then execRequest p.request ((s.quietEdge p).noteAccepted p.request)
  else .next (s.quietEdge p)

/-! ### Placing a request -/

/-- The input samples that offer request `r` at an edge with rst = 0; rsp_ready as it was. -/
def Pins.offering (p : Pins) (r : Request) : Pins := ⟨false, true, r.op, r.a, r.b, p.rspReady⟩

/-- Initialisation brought to its end (R162, R163), if it has not ended. -/
def State.initialised (s : State) : State :=
  if s.initDone then s
  else
    { s with
      tables := s.tables.finish s.params.tableImpl
      initDone := true
      initCount := s.params.initCycles + 1 }

/-- Q with room for one more request: as it is, or emptied where it is full. -/
def State.withRoom (s : State) : State :=
  if s.q.length < s.params.maxOutstanding then s else { s with q := [] }

/-- The request `r` offered at the next edge of the block, initialised and with room. -/
def State.withRequest (s : State) (r : Request) : State :=
  let s' := s.initialised.withRoom
  { s' with pins := s.nextPins.offering r :: s.pins.tail }

end Sys2Proof.Machine
end

