-- ==== Sys2Proof/Machine/Step.lean ====
section
/-! DEFINITION. One step of the machine is one rising edge of clk (spec/10_state.md R22), and the placing of
a request word at the request port. -/

namespace Sys2Proof.Machine

/-- One rising edge, with the host's next input samples. -/
def step (s : State) : Host.Outcome State Fault Refusal := edge s.nextPins s

/-- The request word whose bits are `w` (as spec/opcode_table.json numbers them) offered at the next
edge, in a block that is initialised and has room, so that the very next step accepts and runs it
(log 9). -/
def State.withFetchWord (s : State) (nbits w : Nat) : State :=
  s.withRequest (requestOf (tableWord nbits w))

end Sys2Proof.Machine
end

