-- ==== Sys2Proof/Machine/Answer.lean ====
section
/-! DEFINITION. The response to a request as a pure function of the request alone (spec/00_scope.md R11,
spec/10_state.md R26, spec/30_encoding.md R62): every multiply is the field product of R82 and every
inverse R110's, whatever the block's tables and parameters. The machine does not use it: statements
compare the machine with it. -/

namespace Sys2Proof.Machine

/-- `gfinv` (R13, R110), on the constant content of EXP and LOG. -/
def gfinv (a : Byte) : Byte := invLog Tables.rom a

/-- R62's arms for the nine opcodes. -/
def answerInstr : Instr → Response
  | .add a b => ⟨.ok, zext48 (a ^^^ b)⟩
  | .mulb a b => ⟨.ok, zext48 (gfmul a b)⟩
  | .mull a b => ⟨.ok, zext48 (gfmul a b)⟩
  | .mult a b => ⟨.ok, zext48 (gfmul a b)⟩
  | .mulp4 a b => ⟨.ok, packedData (mulLanes gfmul a b)⟩
  | .inv a => ⟨.ok, zext48 (gfinv a)⟩
  | .pow base exponent => ⟨.ok, zext48 (pow base exponent.toNat)⟩
  | .enc y0 y1 => ⟨.ok, encodePair gfmul y0 y1⟩
  | .dec c0 c1 c2 c3 c4 c5 present =>
    match decodePair gfmul gfinv #v[c0, c1, c2, c3, c4, c5] present with
    | some y => ⟨.ok, pairData y⟩
    | none => ⟨.insufficientSymbols, 0⟩

/-- `exec(OP, A, B)` of R62, its reserved arm included (spec/60_exceptions.md R141). -/
def answer (r : Request) : Response :=
  match decode r.word with
  | .ok i => answerInstr i
  | .error _ => ⟨.illegalOp, 0⟩

end Sys2Proof.Machine
end

