-- ==== Sys2Proof/Machine/Assembler.lean ====
section
/-! DEFINITION. The assembler: source text, its lines, the pseudo-instructions and the requests they stand
for (spec/30_encoding.md R70, R71). The assembler is no part of the block; it says which request words a
host sends. Text is a list of characters. Choices the spec leaves open are in log 13. -/

namespace Sys2Proof.Machine

/-- A request as the host's program has it: a word to send, or `MULT a, r` where r is the DATA[7:0] of
the response to the request before it, for which the host waits (R71, DIV). -/
inductive HostRequest where
  | word (w : ReqWord)
  | multByLast (a : Byte)
  deriving DecidableEq, Repr

/-- The word the host sends, given the response to the request before. -/
def sendWord (last : Response) : HostRequest → ReqWord
  | .word w => w
  | .multByLast a => encode (.mult a (last.data.extractLsb' 0 8))

/-- The mask that lists exactly these positions (R70). -/
def maskOf (ps : List Nat) : BitVec 6 := ps.foldl (fun m p => m ||| (1#6 <<< p)) 0

/-- A number as a byte operand. -/
def toByte (v : Nat) : Byte := BitVec.ofNat 8 v

/-- The requests of a well-formed line: "the assembler places operands as rule R63 says and emits 0 in
every other bit" (R70), and the expansions of R71. -/
def expandLine : AsmLine → List HostRequest
  | .add a b => [.word (encode (.add (toByte a) (toByte b)))]
  | .mulb a b => [.word (encode (.mulb (toByte a) (toByte b)))]
  | .mull a b => [.word (encode (.mull (toByte a) (toByte b)))]
  | .mult a b => [.word (encode (.mult (toByte a) (toByte b)))]
  | .pow base exponent => [.word (encode (.pow (toByte base) (toByte exponent)))]
  | .inv a => [.word (encode (.inv (toByte a)))]
  | .mulp4 a b => [.word (encode (.mulp4 (BitVec.ofNat 32 a) (BitVec.ofNat 32 b)))]
  | .enc y0 y1 => [.word (encode (.enc (toByte y0) (toByte y1)))]
  | .dec c0 c1 c2 c3 c4 c5 ps =>
    [.word (encode (.dec (toByte c0) (toByte c1) (toByte c2) (toByte c3) (toByte c4) (toByte c5)
      (maskOf ps)))]
  | .word op a b => [.word (BitVec.ofNat 4 op ++ BitVec.ofNat 48 a ++ BitVec.ofNat 32 b)]
  | .sub a b => [.word (encode (.add (toByte a) (toByte b)))]
  | .mul a b => [.word (encode (.mult (toByte a) (toByte b)))]
  | .sqr a => [.word (encode (.mult (toByte a) (toByte a)))]
  | .div a b => [.word (encode (.inv (toByte b))), .multByLast (toByte a)]

/-- Why the assembler rejects a line. -/
inductive AsmError where
  /-- the first word is no mnemonic. -/
  | unknownMnemonic
  /-- the operands do not have the mnemonic's form, or a number is not one. -/
  | malformedOperands
  /-- a value does not fit its operand, or the positions of a DEC line are not distinct and in 0..5. -/
  | operandOutOfRange
  deriving DecidableEq, Repr

/-- The assembler on a parsed line: ill-formed lines are rejected (R70). -/
def assemble (l : AsmLine) : Except AsmError (List HostRequest) :=
  if l.wf then .ok (expandLine l) else .error .operandOutOfRange

/-! ### Reading a line of text -/

def isBlank (c : Char) : Bool := c == ' ' || c == '\t'

/-- Without blanks at either end. -/
def trimBlanks (cs : List Char) : List Char :=
  ((cs.dropWhile isBlank).reverse.dropWhile isBlank).reverse

/-- The pieces between the separators. -/
def splitOnChar (sep : Char) : List Char → List (List Char)
  | [] => [[]]
  | c :: cs =>
    if c = sep then [] :: splitOnChar sep cs
    else match splitOnChar sep cs with
      | [] => [[c]]
      | w :: ws => (c :: w) :: ws

/-- The value of a digit. -/
def digitValue (c : Char) : Option Nat :=
  let n := c.toNat
  if 48 ≤ n ∧ n ≤ 57 then some (n - 48)
  else if 65 ≤ n ∧ n ≤ 70 then some (n - 55)
  else if 97 ≤ n ∧ n ≤ 102 then some (n - 87)
  else none

/-- Digits of a base, at least one, after the value read so far. -/
def readDigits (base : Nat) : List Char → Nat → Option Nat
  | [], v => some v
  | c :: cs, v =>
    match digitValue c with
    | some d => if d < base then readDigits base cs (v * base + d) else none
    | none => none

/-- A number: "in decimal, as hex with 0x, or as binary with 0b" (R70). -/
def readNumber (cs : List Char) : Option Nat :=
  match trimBlanks cs with
  | [] => none
  | '0' :: 'x' :: d :: ds => readDigits 16 (d :: ds) 0
  | '0' :: 'b' :: d :: ds => readDigits 2 (d :: ds) 0
  | d :: ds => readDigits 10 (d :: ds) 0

/-- Numbers separated by commas. -/
def readNumbers (cs : List Char) : Option (List Nat) := (splitOnChar ',' cs).mapM readNumber

/-- The opening and the closing brace. -/
def openBrace : Char := Char.ofNat 0x7B
def closeBrace : Char := Char.ofNat 0x7D

/-- The set of a DEC line, from after its opening brace: positions, the closing brace, nothing more. -/
def readPositions (cs : List Char) : Option (List Nat) :=
  let inside := cs.takeWhile (· != closeBrace)
  match cs.dropWhile (· != closeBrace) with
  | [] => none
  | _ :: rest =>
    if trimBlanks rest ≠ [] then none
    else if trimBlanks inside = [] then some []
    else readNumbers inside

/-- The operands of a DEC line: six numbers, a comma, the set (R70). -/
def readDec (cs : List Char) : Option AsmLine :=
  match cs.dropWhile (· != openBrace) with
  | [] => none
  | _ :: set =>
    match splitOnChar ',' (cs.takeWhile (· != openBrace)) with
    | [c0, c1, c2, c3, c4, c5, last] =>
      if trimBlanks last ≠ [] then none
      else match [c0, c1, c2, c3, c4, c5].mapM readNumber, readPositions set with
        | some [n0, n1, n2, n3, n4, n5], some ps => some (.dec n0 n1 n2 n3 n4 n5 ps)
        | _, _ => none
    | _ => none

/-- The operand of `.word`: 1, 12 and 8 hex digits between underscores (R60, R70). -/
def readRawWord (cs : List Char) : Option AsmLine :=
  match splitOnChar '_' (trimBlanks cs) with
  | [op, a, b] =>
    if op.length = 1 ∧ a.length = 12 ∧ b.length = 8 then
      match readDigits 16 op 0, readDigits 16 a 0, readDigits 16 b 0 with
      | some o, some x, some y => some (.word o x y)
      | _, _, _ => none
    else none
  | _ => none

def readOne (mk : Nat → AsmLine) (cs : List Char) : Option AsmLine :=
  match readNumbers cs with
  | some [a] => some (mk a)
  | _ => none

def readTwo (mk : Nat → Nat → AsmLine) (cs : List Char) : Option AsmLine :=
  match readNumbers cs with
  | some [a, b] => some (mk a b)
  | _ => none

/-- The mnemonics, in small letters ("mnemonics are case-insensitive"), each with the reader of its
operands. -/
def mnemonicTable : List (List Char × (List Char → Option AsmLine)) :=
  [(['a', 'd', 'd'], readTwo .add),
   (['m', 'u', 'l', 'b'], readTwo .mulb),
   (['m', 'u', 'l', 'l'], readTwo .mull),
   (['m', 'u', 'l', 't'], readTwo .mult),
   (['m', 'u', 'l', 'p', '4'], readTwo .mulp4),
   (['i', 'n', 'v'], readOne .inv),
   (['p', 'o', 'w'], readTwo .pow),
   (['e', 'n', 'c'], readTwo .enc),
   (['d', 'e', 'c'], readDec),
   (['.', 'w', 'o', 'r', 'd'], readRawWord),
   (['s', 'u', 'b'], readTwo .sub),
   (['m', 'u', 'l'], readTwo .mul),
   (['s', 'q', 'r'], readOne .sqr),
   (['d', 'i', 'v'], readTwo .div)]

/-- One line of source: none for a line with nothing but blanks and a comment. -/
def parseLine (cs : List Char) : Except AsmError (Option AsmLine) :=
  match trimBlanks (cs.takeWhile (· != ';')) with
  | [] => .ok none
  | text =>
    let mn := (text.takeWhile (fun c => !isBlank c)).map Char.toLower
    let operands := text.dropWhile (fun c => !isBlank c)
    match mnemonicTable.lookup mn with
    | none => .error .unknownMnemonic
    | some read =>
      match read operands with
      | none => .error .malformedOperands
      | some l => .ok (some l)

/-- The requests of one line of source. -/
def assembleLine (cs : List Char) : Except AsmError (List HostRequest) :=
  match parseLine cs with
  | .error e => .error e
  | .ok none => .ok []
  | .ok (some l) => assemble l

/-- The requests of a source text, "one request per line"; the first error rejects it. -/
def assembleText (cs : List Char) : Except AsmError (List HostRequest) :=
  match (splitOnChar '\n' cs).mapM assembleLine with
  | .error e => .error e
  | .ok rs => .ok rs.flatten

end Sys2Proof.Machine
end

