-- ==== Sys2Proof/Safety.lean ====
section
/-! DEFINITION. What claims about GF256-CORE are stated in: valid tables, the invariant of the machine, the
record of requests and responses since the last reset, and what the host lets happen. -/

namespace Sys2Proof.Machine

/-- A step that answers a next state. -/
def Safe (s : State) : Prop := ∃ s', step s = .next s'

/-- "init_done = 1 promises that the content is exactly as defined in rules R40 to R43"
(spec/20_memory.md R45). LOG[0] is not mentioned: its content is any value (R41). -/
structure Tables.Valid (t : Tables) : Prop where
  /-- R40: EXP[i] = 3^i. -/
  exp : ∀ i : Fin 255, t.readExp i = pow generator i.val
  /-- R41: LOG[v] is an i in 0..254 with 3^i = v. -/
  log : ∀ v : Byte, v ≠ 0 → (t.readLog v).toNat < 255 ∧ pow generator (t.readLog v).toNat = v
  /-- R42. -/
  multab : ∀ a b : Byte, t.readMul a b = gfmul a b
  /-- R43: the convention. -/
  invZero : t.readInv 0 = 1
  /-- R43: the inverse of a nonzero entry. -/
  inv : ∀ a : Byte, a ≠ 0 → gfmul a (t.readInv a) = 1

/-- The DATA bits an opcode defines (spec/30_encoding.md R65). -/
def dataWidth (op : OpCode) : Nat :=
  match op.toNat with
  | 0x4 => 32
  | 0x7 => 48
  | 0x8 => 16
  | _ => 8

/-- What a response to a request with code `op` can be (spec/60_exceptions.md R140, R146, R65):
ILLEGAL_OP exactly for a reserved code, INSUFFICIENT_SYMBOLS for DEC only, DATA 0 with an error, and the
bits of DATA that the opcode does not define 0. -/
structure Entry.Legal (e : Entry) : Prop where
  illegal : e.status = .illegalOp ↔ reservedOp e.op = true
  insufficient : e.status = .insufficientSymbols → e.op = 0x8
  noPartial : e.status ≠ .ok → e.data = 0
  rest : e.data.toNat < 2 ^ dataWidth e.op

/-- The invariant of the machine: it holds at reset and every step keeps it. -/
structure State.Inv (s : State) : Prop where
  /-- the parameters are in their domains (spec/00_scope.md R9). -/
  params : s.params.wf = true
  /-- every table is in canonical form. -/
  tablesWf : s.tables.wf = true
  /-- ROM tables hold their content always, built ones from init_done on (R34, R45). -/
  tablesValid : s.initDone = true ∨ s.params.tableImpl = .rom → s.tables.Valid
  /-- the initialiser counts to INIT_CYCLES + 1 and no further (spec/70_reset_and_hazards.md R162). -/
  count : if s.initDone then s.initCount = s.params.initCycles + 1
    else s.initCount ≤ s.params.initCycles
  /-- Q holds at most MAX_OUTSTANDING entries (R27), and none before init_done. -/
  bound : s.q.length ≤ s.params.maxOutstanding
  gated : s.initDone = false → s.q = []
  /-- every waiting response is one that its request can have. -/
  legal : ∀ e ∈ s.q, e.Legal

/-- The requests accepted since the last reset edge, oldest first. -/
def acceptedSinceReset : List Event → List Request
  | [] => []
  | .reset :: _ => []
  | .accepted r :: t => acceptedSinceReset t ++ [r]
  | .delivered _ :: t => acceptedSinceReset t

/-- The responses transferred since the last reset edge, oldest first. -/
def deliveredSinceReset : List Event → List Response
  | [] => []
  | .reset :: _ => []
  | .accepted _ :: t => deliveredSinceReset t
  | .delivered r :: t => deliveredSinceReset t ++ [r]

/-- The responses waiting in Q, oldest first. -/
def State.pending (s : State) : List Response := s.q.map Entry.response

/-- "Exactly one response transfers for each accepted request ... in the order their requests were
accepted. The response for a request is exec(OP, A, B)" (spec/10_state.md R26): what has transferred and
what still waits are, in order, the pure answers to what was accepted. -/
def State.InOrder (s : State) : Prop :=
  deliveredSinceReset s.trace ++ s.pending = (acceptedSinceReset s.trace).map answer

/-- The coming n samples are there and each satisfies `ok`. -/
def State.comingPins (s : State) (n : Nat) (ok : Pins → Prop) : Prop :=
  n ≤ s.pins.length ∧ ∀ p ∈ s.pins.take n, ok p

end Sys2Proof.Machine
end

