-- ==== Sys2Proof/Certificates/Slice0/Obligations.lean ====
section
/-! DEFINITION. What is claimed of the model of GF256-CORE, each from a rule of spec/. A statement that needs
the tables' content assumes `Tables.Valid`, which the invariant gives whenever a request can be accepted;
every statement holds for all parameters. -/

open Sys2Proof Sys2Proof.Machine

/-! ### Encoding -/

/-- The encoder and the decoder agree on every instruction, every operand at every value (R63, R66). -/
def Obligations.DecodeOfEncodeIsTheInstruction : Prop :=
  ∀ i : Instr, decode (encode i) = .ok i

/-- R67: bits that OP's row does not name are ignored, and every word that the assembler makes of a line
other than `.word` has them 0. -/
def Obligations.IgnoredBitsDoNotMatter : Prop :=
  (∀ (w w' : ReqWord) (s : State), w &&& usedBits (opField w) = w' &&& usedBits (opField w) →
    execRequest (requestOf w) s = execRequest (requestOf w') s) ∧
  (∀ i : Instr, encode i &&& ~~~ usedBits i.op = 0) ∧
  ∀ (l : AsmLine) (rs : List HostRequest) (r : HostRequest) (last : Response),
    (∀ op a b, l ≠ .word op a b) → assemble l = .ok rs → r ∈ rs →
    sendWord last r &&& ~~~ usedBits (opField (sendWord last r)) = 0

/-- The decoder loses no named bit: encoding what a word decodes to gives the word back, its ignored bits
cleared (R63, R67). -/
def Obligations.EncodeOfDecodeKeepsTheNamedBits : Prop :=
  ∀ (w : ReqWord) (i : Instr), decode w = .ok i → encode i = w &&& usedBits (opField w)

/-- R69: every word is exactly one arm's: OP 0 to 8 an instruction with that code, and 9 to 15 the
reserved arm. -/
def Obligations.EveryWordDecodesToOneArm : Prop :=
  ∀ w : ReqWord,
    ((opField w).toNat < 9 → ∃ i, decode w = .ok i ∧ i.op = opField w) ∧
    (9 ≤ (opField w).toNat → decode w = .error (.reservedOp (opField w)))

/-- Words written out from the layout of R60 and R63 and from R66's codes. -/
def Obligations.WrittenOutWordsDecode : Prop :=
  decode 0x000000000005700000083 = .ok (.add 0x57 0x83) ∧
  decode 0x1FFFFFFFFFF57FFFFFF83 = .ok (.mulb 0x57 0x83) ∧
  decode 0x400000102030405060708 = .ok (.mulp4 0x01020304 0x05060708) ∧
  decode 0x5000000000053FFFFFFFF = .ok (.inv 0x53) ∧
  decode 0x6000000000003000000FF = .ok (.pow 3 255) ∧
  decode 0x86C722836140A00000024 = .ok (.dec 0x0A 0x14 0x36 0x28 0x72 0x6C 0b100100) ∧
  decode 0xC00000000005300000000 = .error (.reservedOp 0xC)

/-! ### A step runs the decoded instruction -/

/-- A request that transfers (R23: rst = 0, req_valid = 1, req_ready = 1) runs: the step is exec of the
instruction its word decodes to, after the edge's other work (`quietEdge`: the response channel, the
ageing of Q, the initialiser, the host's next sample) and the record of the acceptance. -/
def Obligations.StepRunsTheDecodedInstruction : Prop :=
  ∀ (s : State) (i : Instr), s.nextPins.rst = false → s.nextPins.reqValid = true →
    s.initDone = true → s.q.length < s.params.maxOutstanding →
    decode s.nextPins.request.word = .ok i →
    step s = exec i ((s.quietEdge s.nextPins).noteAccepted s.nextPins.request)

/-- A word placed at the request port runs at the very next step, whatever the state before. -/
def Obligations.StepRunsAPlacedWord : Prop :=
  ∀ (s : State) (nbits w : Nat) (i : Instr), 1 ≤ s.params.maxOutstanding →
    decodeTableWord nbits w = some i →
    ∃ s', step (s.withFetchWord nbits w) = exec i s' ∧ s'.params = s.params ∧
      (s.tables.Valid → s.initDone = true → s'.tables = s.tables)

/-- R141: a reserved code is accepted like any other and answered ILLEGAL_OP with DATA 0, whatever A and
B are. -/
def Obligations.ReservedOpcodeIsAnsweredIllegalOp : Prop :=
  ∀ s : State, s.nextPins.rst = false → s.nextPins.reqValid = true →
    s.initDone = true → s.q.length < s.params.maxOutstanding → 9 ≤ s.nextPins.reqOp.toNat →
    step s = .next (((s.quietEdge s.nextPins).noteAccepted s.nextPins.request).push
      ⟨.illegalOp, 0, s.nextPins.reqOp, 0⟩)

/-- No edge stops the block, in any state and with any inputs (R62: each arm ends in one response; R147:
a request before init_done waits). -/
def Obligations.StepAlwaysAnswersANextState : Prop :=
  ∀ s : State, ∃ s', step s = .next s'

/-! ### Results: each instruction completes, with its rule's response

The last clause of each says which bits of any request with the rule's code are the operands. -/

/-- R80. -/
def Obligations.AddAnswersTheXor : Prop :=
  (∀ (a b : Byte) (s : State),
    exec (.add a b) s = .next (s.push ⟨.ok, (a ^^^ b).setWidth 48, 0x0, 0⟩)) ∧
  ∀ (A : BitVec 48) (B : BitVec 32) (s : State),
    execRequest ⟨0x0, A, B⟩ s = exec (.add (A.extractLsb' 0 8) (B.extractLsb' 0 8)) s

/-- R90, on the responses. -/
def Obligations.AddObeysItsLaws : Prop :=
  ∀ (a b c : Byte) (s : State),
    exec (.add a (a ^^^ b)) s = .next (s.push ⟨.ok, b.setWidth 48, 0x0, 0⟩) ∧
    exec (.add a a) s = .next (s.push ⟨.ok, 0, 0x0, 0⟩) ∧
    exec (.add a b) s = exec (.add b a) s ∧
    exec (.add (a ^^^ b) c) s = exec (.add a (b ^^^ c)) s ∧
    exec (.add a 0) s = .next (s.push ⟨.ok, a.setWidth 48, 0x0, 0⟩)

/-- R83, its corner cases and its reduction cases. -/
def Obligations.MulbAnswersTheFieldProduct : Prop :=
  (∀ (a b : Byte) (s : State),
    exec (.mulb a b) s = .next (s.push ⟨.ok, (gfmul a b).setWidth 48, 0x1, 0⟩)) ∧
  (∀ a : Byte, gfmul a 0 = 0 ∧ gfmul 0 a = 0 ∧ gfmul a 1 = a) ∧
  (gfmul 0x80 0x02 = 0x1B ∧ gfmul 0x80 0x80 = 0x9A ∧ gfmul 0xFF 0xFF = 0x13 ∧ gfmul 5 5 = 0x11) ∧
  ∀ (A : BitVec 48) (B : BitVec 32) (s : State),
    execRequest ⟨0x1, A, B⟩ s = exec (.mulb (A.extractLsb' 0 8) (B.extractLsb' 0 8)) s

/-- R86 and R87: a zero operand gives 0 whatever LOG holds; otherwise EXP at the sum of the logarithms,
less 255 where the sum reaches it; and either way the field product. -/
def Obligations.MullAnswersTheFieldProduct : Prop :=
  (∀ (a b : Byte) (s : State), a = 0 ∨ b = 0 → exec (.mull a b) s = .next (s.push ⟨.ok, 0, 0x2, 0⟩)) ∧
  (∀ (a b : Byte) (s : State) (sum : Nat) (k : Fin 255), s.tables.Valid → a ≠ 0 → b ≠ 0 →
    sum = (s.tables.readLog a).toNat + (s.tables.readLog b).toNat →
    k.val = (if 255 ≤ sum then sum - 255 else sum) →
    exec (.mull a b) s = .next (s.push ⟨.ok, (s.tables.readExp k).setWidth 48, 0x2, 0⟩)) ∧
  (∀ (a b : Byte) (s : State), s.tables.Valid →
    exec (.mull a b) s = .next (s.push ⟨.ok, (gfmul a b).setWidth 48, 0x2, 0⟩)) ∧
  ∀ (A : BitVec 48) (B : BitVec 32) (s : State),
    execRequest ⟨0x2, A, B⟩ s = exec (.mull (A.extractLsb' 0 8) (B.extractLsb' 0 8)) s

/-- R88 and R42. -/
def Obligations.MultAnswersTheFieldProduct : Prop :=
  (∀ (a b : Byte) (s : State),
    exec (.mult a b) s = .next (s.push ⟨.ok, (s.tables.readMul a b).setWidth 48, 0x3, 0⟩)) ∧
  (∀ (a b : Byte) (s : State), s.tables.Valid →
    exec (.mult a b) s = .next (s.push ⟨.ok, (gfmul a b).setWidth 48, 0x3, 0⟩)) ∧
  ∀ (A : BitVec 48) (B : BitVec 32) (s : State),
    execRequest ⟨0x3, A, B⟩ s = exec (.mult (A.extractLsb' 0 8) (B.extractLsb' 0 8)) s

/-- R84: the product of e copies of the base, and its corner cases. -/
def Obligations.PowAnswersTheIteratedProduct : Prop :=
  (∀ (base e : Byte) (s : State),
    exec (.pow base e) s = .next (s.push
      ⟨.ok, ((List.replicate e.toNat base).foldl gfmul 1).setWidth 48, 0x6, 0⟩)) ∧
  (∀ base : Byte, pow base 0 = 1) ∧ (∀ e : Nat, 1 ≤ e → pow 0 e = 0) ∧ (∀ e : Nat, pow 1 e = 1) ∧
  (∀ a : Byte, a ≠ 0 → pow a 255 = 1) ∧
  ∀ (A : BitVec 48) (B : BitVec 32) (s : State),
    execRequest ⟨0x6, A, B⟩ s = exec (.pow (A.extractLsb' 0 8) (B.extractLsb' 0 8)) s

/-- R100 and R101: each lane of the result is the scalar table product of the lanes, and the field
product, by every MUL_IMPL; DATA[47:32] = 0. -/
def Obligations.Mulp4AnswersTheProductOfEachLane : Prop :=
  (∀ (a b : Packed) (s : State), s.tables.Valid →
    ∃ d : Data, exec (.mulp4 a b) s = .next (s.push ⟨.ok, d, 0x4, 0⟩) ∧
      d.extractLsb' 32 16 = 0 ∧
      ∀ k < 4, d.extractLsb' (8 * k) 8 = gfmul (a.extractLsb' (8 * k) 8) (b.extractLsb' (8 * k) 8) ∧
        exec (.mult (a.extractLsb' (8 * k) 8) (b.extractLsb' (8 * k) 8)) s =
          .next (s.push ⟨.ok, (d.extractLsb' (8 * k) 8).setWidth 48, 0x3, 0⟩)) ∧
  ∀ (A : BitVec 48) (B : BitVec 32) (s : State),
    execRequest ⟨0x4, A, B⟩ s = exec (.mulp4 (A.extractLsb' 0 32) B) s

/-- R110 and R112: INV(0) = 1, and every other answer is EXP at the negated logarithm and the
multiplicative inverse, by every INV_IMPL and MUL_IMPL; gfmul(0, INV(0)) = 0. -/
def Obligations.InvAnswersTheInverse : Prop :=
  (∀ (a : Byte) (s : State), s.tables.Valid →
    ∃ r : Byte, exec (.inv a) s = .next (s.push ⟨.ok, r.setWidth 48, 0x5, 0⟩) ∧
      (a = 0 → r = 1 ∧ gfmul a r = 0) ∧
      (a ≠ 0 → gfmul a r = 1 ∧
        r = s.tables.readExp ⟨(255 - (s.tables.readLog a).toNat) % 255, Nat.mod_lt _ (by decide)⟩)) ∧
  ∀ (A : BitVec 48) (B : BitVec 32) (s : State),
    execRequest ⟨0x5, A, B⟩ s = exec (.inv (A.extractLsb' 0 8)) s

/-- R120: position x of DATA is y0·(x ^ 1) ^ y1·x; and its corner cases, ENC(y, y) and sums. -/
def Obligations.EncAnswersTheCodeword : Prop :=
  (∀ (y0 y1 : Byte) (s : State), s.tables.Valid →
    ∃ d : Data, exec (.enc y0 y1) s = .next (s.push ⟨.ok, d, 0x7, 0⟩) ∧
      ∀ x < 6, d.extractLsb' (8 * x) 8 =
        gfmul y0 (BitVec.ofNat 8 x ^^^ 1) ^^^ gfmul y1 (BitVec.ofNat 8 x)) ∧
  (∀ (y0 y1 z0 z1 : Byte) (x : Fin 6),
    encodeSymbol gfmul y0 y0 x = y0 ∧
    encodeSymbol gfmul (y0 ^^^ z0) (y1 ^^^ z1) x =
      encodeSymbol gfmul y0 y1 x ^^^ encodeSymbol gfmul z0 z1 x) ∧
  ∀ (A : BitVec 48) (B : BitVec 32) (s : State),
    execRequest ⟨0x7, A, B⟩ s = exec (.enc (A.extractLsb' 0 8) (B.extractLsb' 0 8)) s

/-- R123. With two or more present positions the two lowest, x0 < x1, decide, by Cramer's rule with the
inverse dxInv of x0 ^ x1; no other symbol matters. With fewer the error is raised. -/
def Obligations.DecAnswersFromTheTwoLowestPositions : Prop :=
  (∀ (c0 c1 c2 c3 c4 c5 : Byte) (present : BitVec 6) (s : State) (x0 x1 : Fin 6) (v0 v1 p0 p1 dxInv : Byte),
    s.tables.Valid → x0 < x1 → present.getLsbD x0 = true → present.getLsbD x1 = true →
    (∀ x : Fin 6, x < x1 → present.getLsbD x = true → x = x0) →
    v0 = #v[c0, c1, c2, c3, c4, c5][x0] → v1 = #v[c0, c1, c2, c3, c4, c5][x1] →
    p0 = BitVec.ofNat 8 x0 → p1 = BitVec.ofNat 8 x1 → gfmul (p0 ^^^ p1) dxInv = 1 →
    ∃ y0 y1 : Byte,
      y0 = gfmul (gfmul v0 p1 ^^^ gfmul v1 p0) dxInv ∧
      y1 = gfmul (gfmul v0 (p1 ^^^ 1) ^^^ gfmul v1 (p0 ^^^ 1)) dxInv ∧
      exec (.dec c0 c1 c2 c3 c4 c5 present) s =
        .next (s.push ⟨.ok, (0#32 ++ y1 ++ y0), 0x8, 0⟩)) ∧
  (∀ (c0 c1 c2 c3 c4 c5 : Byte) (present : BitVec 6) (s : State), popcount present < 2 →
    exec (.dec c0 c1 c2 c3 c4 c5 present) s = raise 0x8 .insufficientSymbols s) ∧
  ∀ (A : BitVec 48) (B : BitVec 32) (s : State),
    execRequest ⟨0x8, A, B⟩ s =
      exec (.dec (A.extractLsb' 0 8) (A.extractLsb' 8 8) (A.extractLsb' 16 8) (A.extractLsb' 24 8)
        (A.extractLsb' 32 8) (A.extractLsb' 40 8) (B.extractLsb' 0 6)) s

/-- R142: no two distinct positions present: INSUFFICIENT_SYMBOLS, DATA 0. -/
def Obligations.DecRejectsFewerThanTwoPositions : Prop :=
  ∀ (c0 c1 c2 c3 c4 c5 : Byte) (present : BitVec 6) (s : State),
    (∀ x y : Fin 6, present.getLsbD x = true → present.getLsbD y = true → x = y) →
    exec (.dec c0 c1 c2 c3 c4 c5 present) s = .next (s.push ⟨.insufficientSymbols, 0, 0x8, 0⟩)

/-- The frame of all nine instructions, error responses included (R28, R32): one entry, of age 0 and with
the instruction's code, joins the tail of Q; the tables, init_done, the initialiser's count, the parameters
and the ports are as before. -/
def Obligations.ExecOnlyAppendsOneEntry : Prop :=
  ∀ (i : Instr) (s s' : State), exec i s = .next s' →
    (∃ e : Entry, s'.q = s.q ++ [e] ∧ e.op = i.op ∧ e.age = 0) ∧
    s'.tables = s.tables ∧ s'.initDone = s.initDone ∧ s'.initCount = s.initCount ∧
    s'.params = s.params ∧ s'.pins = s.pins ∧ s'.trace = s.trace ∧ s'.freeCount = s.freeCount

/-- R140, R146 and R65: what any request's entry can hold, in any state. -/
def Obligations.EveryEntryIsLegal : Prop :=
  ∀ (r : Request) (s s' : State), execRequest r s = .next s' →
    ∃ e : Entry, s' = s.push e ∧ e.op = r.op ∧ e.Legal

/-- R140: STATUS is 0, 1 or 2 by the response's name, and never 3. -/
def Obligations.StatusCodeThreeIsNeverProduced : Prop :=
  ∀ r : Response,
    (responseWord r).extractLsb' 48 2 ≠ 3 ∧
    ((responseWord r).extractLsb' 48 2 = 0 ↔ r.status = .ok) ∧
    ((responseWord r).extractLsb' 48 2 = 1 ↔ r.status = .illegalOp) ∧
    ((responseWord r).extractLsb' 48 2 = 2 ↔ r.status = .insufficientSymbols) ∧
    (responseWord r).extractLsb' 0 48 = r.data

/-! ### Strategies and parameters -/

/-- R89: the three multiplies are one function. -/
def Obligations.AllMultiplyStrategiesAgree : Prop :=
  ∀ t : Tables, t.Valid → ∀ a b : Byte,
    mulLog t a b = gfmul a b ∧ mulTable t a b = gfmul a b ∧ ∀ impl, mulBy impl t a b = gfmul a b

/-- R111: every method of the inverse, over every method of its multiplies, gives R110's value; and at 0
the bare power would not. -/
def Obligations.AllInverseMethodsAgree : Prop :=
  (∀ t : Tables, t.Valid → ∀ (impl : InvImpl) (m : MulImpl) (a : Byte),
    invBy impl (mulBy m t) t a = gfinv a) ∧
  (∀ a : Byte, a ≠ 0 → pow a 254 = gfinv a) ∧ gfinv 0 = 1 ∧ pow 0 254 = 0

/-- R26: the response is a pure function of the request alone: every accepted request, in every state with
valid tables, whatever else the state holds and whatever the parameters, is answered with `answer`. -/
def Obligations.ResponseDependsOnTheRequestAlone : Prop :=
  ∀ (r : Request) (s : State), s.tables.Valid →
    execRequest r s = .next (s.push ⟨(answer r).status, (answer r).data, r.op, 0⟩)

/-! ### The field -/

/-- R81: the carry-less product is the product of two polynomials over GF(2) (bit k is the sum of
a[k − i]·b[i]); it is commutative, and its bit 15 is 0. -/
def Obligations.CarrylessProductCommutes : Prop :=
  ∀ a b : Byte,
    (∀ k < 16, (clmul a b).getLsbD k =
      (List.range 8).foldl (fun p i => p ^^ (decide (i ≤ k) && a.getLsbD (k - i) && b.getLsbD i)) false) ∧
    clmul a b = clmul b a ∧ (clmul a b).getLsbD 15 = false

/-- R82: `reduce` gives the remainder modulo 0x11B: what it takes away is a sum of shifts of the
polynomial. -/
def Obligations.ReduceGivesTheRemainder : Prop :=
  ∀ p : BitVec 16, ∃ quotient : Byte,
    p = (reduce p).setWidth 16 ^^^
      (List.range 8).foldl (fun r i => if quotient.getLsbD i then r ^^^ (0x11B#16 <<< i) else r) 0

/-- R91: (bytes, XOR, gfmul) obeys the laws of a field. -/
def Obligations.FieldLawsHold : Prop :=
  ∀ a b c : Byte,
    gfmul a b = gfmul b a ∧
    gfmul (gfmul a b) c = gfmul a (gfmul b c) ∧
    gfmul a (b ^^^ c) = gfmul a b ^^^ gfmul a c ∧
    gfmul a 1 = a ∧ gfmul a 0 = 0 ∧
    (gfmul a b = 0 → a = 0 ∨ b = 0)

/-- R4: the powers 3^0 to 3^254 are the nonzero elements, each exactly once, and 3^255 = 1. -/
def Obligations.GeneratorPowersAreTheNonzeroElements : Prop :=
  (∀ a : Byte, a ≠ 0 → ∃! i : Fin 255, pow 3 i = a) ∧ (∀ i : Nat, pow 3 i ≠ 0) ∧ pow 3 255 = 1

/-- R3: 0x02 has multiplicative order 51, so it generates only part of the group. -/
def Obligations.OrderOfTwoIsFiftyOne : Prop :=
  pow 2 51 = 1 ∧ ∀ k : Fin 51, k.val ≠ 0 → pow 2 k ≠ 1

/-- R85: the closed form of POW. -/
def Obligations.PowHasItsClosedForm : Prop :=
  ∀ t : Tables, t.Valid → ∀ (a : Byte) (e : Nat),
    (a ≠ 0 → pow a e = t.readExp ⟨(t.readLog a).toNat * e % 255, Nat.mod_lt _ (by decide)⟩) ∧
    pow 0 e = if e = 0 then 1 else 0

/-! ### The tables -/

/-- R46: the table laws. -/
def Obligations.TableLawsHold : Prop :=
  ∀ t : Tables, t.Valid →
    (∀ i j : Fin 255, t.readExp i = t.readExp j → i = j) ∧
    (∀ v : Byte, (∃ i, t.readExp i = v) ↔ v ≠ 0) ∧
    (∀ i : Fin 255, (t.readLog (t.readExp i)).toNat = i) ∧
    (∀ v : Byte, v ≠ 0 → ∃ h : (t.readLog v).toNat < 255, t.readExp ⟨_, h⟩ = v) ∧
    (∀ a b : Byte, t.readMul a b = t.readMul b a) ∧
    (∀ a : Byte, a ≠ 0 → gfmul a (t.readInv a) = 1)

/-- R45: from any content the procedure leaves the content of R40 to R43, does not write LOG[0], and run
twice gives the same tables. -/
def Obligations.BuildFillsTheTables : Prop :=
  ∀ t : Tables, t.wf = true →
    t.build.Valid ∧ t.build.wf = true ∧ t.build.readLog 0 = t.readLog 0 ∧ t.build.build = t.build

/-- R30: once init_done = 1 no edge without reset changes the tables, whatever is on the ports. -/
def Obligations.TablesAreReadOnlyOnceInitialised : Prop :=
  ∀ s s' : State, s.initDone = true → s.nextPins.rst = false → step s = .next s' →
    s'.tables = s.tables

/-! ### The erasure code -/

/-- R122. -/
def Obligations.EncodingIsSystematic : Prop :=
  ∀ (y0 y1 : Byte) (s : State) (d : Data), s.tables.Valid →
    exec (.enc y0 y1) s = .next (s.push ⟨.ok, d, 0x7, 0⟩) →
    d.extractLsb' 0 8 = y0 ∧ d.extractLsb' 8 8 = y1

/-- R121: the coefficients of y0 and y1 at each position, and that position x is the polynomial
y0 + (y0 + y1)·X at x. -/
def Obligations.EncodingEvaluatesAPolynomial : Prop :=
  ∀ (y0 y1 : Byte) (x : Fin 6),
    encodeSymbol gfmul y0 y1 x =
      gfmul y0 (#v[1, 0, 3, 2, 5, 4] : Vector Byte 6)[x] ^^^
        gfmul y1 (#v[0, 1, 2, 3, 4, 5] : Vector Byte 6)[x] ∧
    encodeSymbol gfmul y0 y1 x = y0 ^^^ gfmul (y0 ^^^ y1) (BitVec.ofNat 8 x)

/-- R125: whatever two or more positions survive, DEC of ENC's codeword is the data. -/
def Obligations.DecodingRecoversTheData : Prop :=
  ∀ (y0 y1 : Byte) (present : BitVec 6) (s : State) (d : Data) (x x' : Fin 6), s.tables.Valid →
    x ≠ x' → present.getLsbD x = true → present.getLsbD x' = true →
    exec (.enc y0 y1) s = .next (s.push ⟨.ok, d, 0x7, 0⟩) →
    exec (.dec (d.extractLsb' 0 8) (d.extractLsb' 8 8) (d.extractLsb' 16 8) (d.extractLsb' 24 8)
        (d.extractLsb' 32 8) (d.extractLsb' 40 8) present) s =
      .next (s.push ⟨.ok, 0#32 ++ y1 ++ y0, 0x8, 0⟩)

/-- R126: dx and its inverse for each pair of positions. -/
def Obligations.DecodeIntermediateValues : Prop :=
  ∀ row ∈ ([(0b000011, 0, 1, 1, 0x01), (0b000101, 0, 2, 2, 0x8D), (0b001001, 0, 3, 3, 0xF6),
      (0b010001, 0, 4, 4, 0xCB), (0b100001, 0, 5, 5, 0x52), (0b000110, 1, 2, 3, 0xF6),
      (0b001010, 1, 3, 2, 0x8D), (0b010010, 1, 4, 5, 0x52), (0b100010, 1, 5, 4, 0xCB)]
      ++ [(0b001100, 2, 3, 1, 0x01), (0b010100, 2, 4, 6, 0x7B), (0b100100, 2, 5, 7, 0xD1),
      (0b011000, 3, 4, 7, 0xD1), (0b101000, 3, 5, 6, 0x7B), (0b110000, 4, 5, 1, 0x01)] :
      List (BitVec 6 × Fin 6 × Fin 6 × Byte × Byte)),
    presentPositions row.1 = [row.2.1, row.2.2.1] ∧
      point row.2.1 ^^^ point row.2.2.1 = row.2.2.2.1 ∧ gfinv row.2.2.2.1 = row.2.2.2.2

/-! ### Reset and initialisation -/

/-- R160: a reset edge, in any state and with anything on the other ports, empties Q and clears init_done,
nothing transfers, and in the following cycle rsp_valid = 0 and req_ready = 0. -/
def Obligations.ResetEdgeClearsTheBlock : Prop :=
  ∀ s : State, s.nextPins.rst = true →
    ∃ s', step s = .next s' ∧ s'.q = [] ∧ s'.initDone = false ∧ s'.initCount = 0 ∧
      s'.rspValid = false ∧ s'.reqReady = false ∧ s'.trace = .reset :: s.trace ∧
      s'.params = s.params ∧ s'.pins = s.pins.tail

/-- R34: the state right after reset, for every choice of the parameters. -/
def Obligations.StateRightAfterReset : Prop :=
  ∀ p : Params,
    (State.resetWith p).initDone = false ∧ (State.resetWith p).initDoneOut = false ∧
    (State.resetWith p).q = [] ∧ (State.resetWith p).reqReady = false ∧
    (State.resetWith p).rspValid = false ∧
    (p.tableImpl = .rom → (State.resetWith p).tables.Valid)

/-- R162: with rst = 0 kept from a reset on, init_done is 1 exactly from the (INIT_CYCLES + 1)-th edge on,
whatever else is on the ports, and the tables then hold their content. -/
def Obligations.InitDoneRisesAfterInitCycles : Prop :=
  ∀ (s : State) (k : Nat), s.Inv → s.initDone = false → s.initCount = 0 →
    s.comingPins k (fun p => p.rst = false) →
    ∃ s', Host.Core.run Sys2Proof.core k s = .next s' ∧
      (s'.initDone = true ↔ s.params.initCycles + 1 ≤ k) ∧
      (s'.initDone = true → s'.tables.Valid)

/-- R163: initialisation, from a reset on and whatever else is on the ports, leaves an empty Q,
rsp_valid = 0, req_ready = 1 and valid tables. -/
def Obligations.InitialisedBlockIsReady : Prop :=
  ∀ s : State, s.Inv → s.initDone = false → s.initCount = 0 →
    s.comingPins (s.params.initCycles + 1) (fun p => p.rst = false) →
    ∃ s', Host.Core.run Sys2Proof.core (s.params.initCycles + 1) s = .next s' ∧
      s'.q = [] ∧ s'.rspValid = false ∧ s'.reqReady = true ∧ s'.tables.Valid

/-! ### The channels -/

/-- R24. -/
def Obligations.ReadyExactlyWhenInitialisedWithRoom : Prop :=
  ∀ s : State, s.reqReady = true ↔ s.initDone = true ∧ s.q.length < s.params.maxOutstanding

/-- R28 and R25: rsp_valid is 1 exactly when Q has a ripe head, and rsp_status and rsp_data are then the
head's. -/
def Obligations.OutputsComeFromTheHead : Prop :=
  (∀ s : State, s.q = [] → s.rspValid = false) ∧
  ∀ (s : State) (e : Entry) (es : List Entry), s.q = e :: es →
    (s.rspValid = true ↔ s.params.latOf e.op - 1 ≤ e.age) ∧
    (s.rspValid = true → s.rspStatus = statusCode e.status ∧ s.rspData = e.data)

/-- R23 and R147: a request offered while req_ready = 0 is as if it were not offered. -/
def Obligations.RequestOfferedWhileNotReadyHasNoEffect : Prop :=
  ∀ (s : State) (p : Pins) (ps : List Pins), s.pins = p :: ps → s.reqReady = false →
    step s = step { s with pins := { p with reqValid := false } :: ps }

/-- R25: a response on offer that is not taken is offered unchanged in the next cycle. -/
def Obligations.ResponseIsHeldUntilTaken : Prop :=
  ∀ s : State, s.rspValid = true → s.nextPins.rst = false → s.nextPins.rspReady = false →
    ∃ s', step s = .next s' ∧ s'.rspValid = true ∧ s'.rspStatus = s.rspStatus ∧
      s'.rspData = s.rspData ∧ deliveredSinceReset s'.trace = deliveredSinceReset s.trace

/-- R25 and R28: with rst = 0 a response transfers exactly when rsp_valid = 1 and rsp_ready = 1; it is the
head of Q, it leaves Q, and every entry still in Q is an edge older. An edge at which a request transfers
appends one entry, of age 0 and with the request's code; any other appends nothing. -/
def Obligations.ResponseTransferRemovesTheHead : Prop :=
  ∀ (s : State) (e : Entry) (es : List Entry), s.q = e :: es → s.nextPins.rst = false →
    ∃ s' new, step s = .next s' ∧
      (if e.ripe s.params = true ∧ s.nextPins.rspReady = true then
        s'.q = es.map Entry.older ++ new ∧
        deliveredSinceReset s'.trace = deliveredSinceReset s.trace ++ [e.response]
      else
        s'.q = s.q.map Entry.older ++ new ∧
        deliveredSinceReset s'.trace = deliveredSinceReset s.trace) ∧
      (s.accepts s.nextPins = false → new = []) ∧
      (s.accepts s.nextPins = true → ∃ e', new = [e'] ∧ e'.op = s.nextPins.reqOp ∧ e'.age = 0)

/-- A request and a response transfer at one edge, with Q full but for one place (D36, Program 4): the
response's entry leaves the head, the request's joins the tail. -/
def Obligations.RequestAndResponseTransferAtOneEdge : Prop :=
  ∀ (s : State) (e : Entry) (es : List Entry), s.Inv → s.initDone = true → s.q = e :: es →
    e.ripe s.params = true → s.q.length < s.params.maxOutstanding →
    s.nextPins.rst = false → s.nextPins.reqValid = true → s.nextPins.rspReady = true →
    ∃ s', step s = .next s' ∧
      s'.q = es.map Entry.older ++ [⟨(answer s.nextPins.request).status,
        (answer s.nextPins.request).data, s.nextPins.reqOp, 0⟩] ∧
      s'.trace = .accepted s.nextPins.request :: .delivered e.response :: s.trace

/-- R28: an accepted request's response is on offer exactly from the cycle after the (LAT(op) − 1)-th edge
that follows its acceptance. -/
def Obligations.ResponseIsOfferedAfterItsLatency : Prop :=
  ∀ (s : State) (p : Pins) (ps : List Pins) (k : Nat), s.params.wf = true → s.initDone = true →
    s.q = [] → s.pins = p :: ps → p.rst = false → p.reqValid = true → k ≤ ps.length →
    (∀ p' ∈ ps.take k, p'.rst = false ∧ p'.reqValid = false ∧ p'.rspReady = false) →
    ∃ s', Host.Core.run Sys2Proof.core (k + 1) s = .next s' ∧
      (s'.rspValid = true ↔ s.params.latOf p.reqOp - 1 ≤ k)

/-- R166 (b): while the host takes no response, a full Q stays full of the same responses and req_ready
stays 0; the block does not stop. -/
def Obligations.FullQueueStallsUntilTheHostTakes : Prop :=
  ∀ (s : State) (k : Nat), s.q.length = s.params.maxOutstanding →
    s.comingPins k (fun p => p.rst = false ∧ p.rspReady = false) →
    ∃ s', Host.Core.run Sys2Proof.core k s = .next s' ∧ s'.pending = s.pending ∧
      s'.reqReady = false

/-- R155: an idle block keeps all its state, once the initialiser has counted to its end (R162). The host's
list of samples and the free counter are the model's own fields (log entries 2 and 7). -/
def Obligations.IdleBlockKeepsItsState : Prop :=
  ∀ s : State, s.initDone = true → s.q = [] → s.nextPins.rst = false → s.nextPins.reqValid = false →
    step s = .next { s with pins := s.pins.tail, freeCount := s.freeCount + 1 }

/-! ### Invariants -/

/-- The invariant holds right after reset, for parameters in their domains. -/
def Obligations.InvariantHoldsAtReset : Prop :=
  (∀ p : Params, p.wf = true → (State.resetWith p).Inv ∧ (State.resetWith p).InOrder) ∧
  State.reset.Inv ∧ State.reset.InOrder

/-- Every step keeps the invariant, from every state that has it. -/
def Obligations.StepKeepsTheInvariant : Prop :=
  ∀ s s' : State, s.Inv → step s = .next s' → s'.Inv

/-- R26: the responses transferred since the last reset, followed by those still waiting, are the answers
to the requests accepted since then, in acceptance order, one each: every step keeps it. -/
def Obligations.StepKeepsResponsesInOrder : Prop :=
  ∀ s s' : State, s.Inv → s.InOrder → step s = .next s' → s'.InOrder

/-- R29: a host that keeps rsp_ready = 1 gets every waiting response: with L a bound of LAT, after L edges
and one more for each waiting entry, all that waited have transferred, first and in order, whatever
requests the host goes on offering. -/
def Obligations.EveryWaitingResponseIsDelivered : Prop :=
  ∀ (s : State) (bound k : Nat), (∀ op, s.params.latOf op ≤ bound) → bound + s.q.length ≤ k →
    s.comingPins k (fun p => p.rst = false ∧ p.rspReady = true) →
    ∃ s' later, Host.Core.run Sys2Proof.core k s = .next s' ∧
      deliveredSinceReset s'.trace = deliveredSinceReset s.trace ++ s.pending ++ later

/-! ### The assembler -/

/-- R70, mnemonic by mnemonic: a line whose values fit and whose listed positions are each in 0..5 and
at most once assembles to the word of the instruction with those operands (for DEC, a mask with bit x set
exactly when x is listed; for `.word`, the three fields as written), and any other line is rejected. That
the rejection is the error `operandOutOfRange` is the model's choice (log entry 13). -/
def Obligations.AssemblerPlacesTheOperands : Prop :=
  (∀ l : AsmLine, l.wf = false → assemble l = .error .operandOutOfRange) ∧
  (∀ a b : Nat, assemble (.add a b) = if a < 256 ∧ b < 256
    then .ok [.word (encode (.add (BitVec.ofNat 8 a) (BitVec.ofNat 8 b)))]
    else .error .operandOutOfRange) ∧
  (∀ a b : Nat, assemble (.mulb a b) = if a < 256 ∧ b < 256
    then .ok [.word (encode (.mulb (BitVec.ofNat 8 a) (BitVec.ofNat 8 b)))]
    else .error .operandOutOfRange) ∧
  (∀ a b : Nat, assemble (.mull a b) = if a < 256 ∧ b < 256
    then .ok [.word (encode (.mull (BitVec.ofNat 8 a) (BitVec.ofNat 8 b)))]
    else .error .operandOutOfRange) ∧
  (∀ a b : Nat, assemble (.mult a b) = if a < 256 ∧ b < 256
    then .ok [.word (encode (.mult (BitVec.ofNat 8 a) (BitVec.ofNat 8 b)))]
    else .error .operandOutOfRange) ∧
  (∀ base e : Nat, assemble (.pow base e) = if base < 256 ∧ e < 256
    then .ok [.word (encode (.pow (BitVec.ofNat 8 base) (BitVec.ofNat 8 e)))]
    else .error .operandOutOfRange) ∧
  (∀ a : Nat, assemble (.inv a) = if a < 256
    then .ok [.word (encode (.inv (BitVec.ofNat 8 a)))]
    else .error .operandOutOfRange) ∧
  (∀ a b : Nat, assemble (.mulp4 a b) = if a < 2 ^ 32 ∧ b < 2 ^ 32
    then .ok [.word (encode (.mulp4 (BitVec.ofNat 32 a) (BitVec.ofNat 32 b)))]
    else .error .operandOutOfRange) ∧
  (∀ y0 y1 : Nat, assemble (.enc y0 y1) = if y0 < 256 ∧ y1 < 256
    then .ok [.word (encode (.enc (BitVec.ofNat 8 y0) (BitVec.ofNat 8 y1)))]
    else .error .operandOutOfRange) ∧
  (∀ (c0 c1 c2 c3 c4 c5 : Nat) (ps : List Nat), ∃ m : BitVec 6,
    (∀ x < 6, m.getLsbD x = true ↔ x ∈ ps) ∧
    assemble (.dec c0 c1 c2 c3 c4 c5 ps) =
      if (∀ c ∈ [c0, c1, c2, c3, c4, c5], c < 256) ∧ (∀ p ∈ ps, p < 6) ∧ ps.Nodup
      then .ok [.word (encode (.dec (BitVec.ofNat 8 c0) (BitVec.ofNat 8 c1) (BitVec.ofNat 8 c2)
        (BitVec.ofNat 8 c3) (BitVec.ofNat 8 c4) (BitVec.ofNat 8 c5) m))]
      else .error .operandOutOfRange) ∧
  (∀ op a b : Nat, assemble (.word op a b) = if op < 16 ∧ a < 2 ^ 48 ∧ b < 2 ^ 32
    then .ok [.word (BitVec.ofNat 4 op ++ BitVec.ofNat 48 a ++ BitVec.ofNat 32 b)]
    else .error .operandOutOfRange) ∧
  ∀ a b : Nat, ¬ (a < 256 ∧ b < 256) → assemble (.div a b) = .error .operandOutOfRange

/-- R71: what each pseudo-instruction expands to. SUB, MUL and SQR are the instruction named, for operands
in and out of range, and assemble to its word. DIV a, b is the word of INV b, then, whatever response comes
back, the word of MULT a and that response's DATA[7:0]; so DIV computes the quotient: the product of its
answer with a nonzero divisor is the dividend, and DIV a, 0 answers a. -/
def Obligations.PseudoInstructionsAreExact : Prop :=
  (∀ a b : Nat, assemble (.sub a b) = assemble (.add a b)) ∧
  (∀ a b : Nat, assemble (.mul a b) = assemble (.mult a b)) ∧
  (∀ a : Nat, assemble (.sqr a) = assemble (.mult a a)) ∧
  (∀ a b : Byte, assemble (.sub a.toNat b.toNat) = .ok [.word (encode (.add a b))]) ∧
  (∀ a b : Byte, assemble (.mul a.toNat b.toNat) = .ok [.word (encode (.mult a b))]) ∧
  (∀ a : Byte, assemble (.sqr a.toNat) = .ok [.word (encode (.mult a a))]) ∧
  ∀ a b : Byte, ∃ second : HostRequest, ∃ q : Byte,
    assemble (.div a.toNat b.toNat) = .ok [.word (encode (.inv b)), second] ∧
    (∀ last : Response, sendWord last second = encode (.mult a (last.data.extractLsb' 0 8))) ∧
    answer (requestOf (sendWord (answer (requestOf (encode (.inv b)))) second)) =
      ⟨.ok, q.setWidth 48⟩ ∧
    (b ≠ 0 → gfmul q b = a) ∧ (b = 0 → q = a)

/-- R72: the encoding example. -/
def Obligations.EncodingExampleAssembles : Prop :=
  assembleLine ['E', 'N', 'C', ' ', '1', '0', ',', ' ', '2', '0'] =
    .ok [.word 0x700000000000A00000014] ∧
  answer (requestOf 0x700000000000A00000014) = ⟨.ok, 0x6C722836140A⟩
end

