-- ==== Sys2Proof/Laws/Assembler.lean ====
section
/-! SUPPORT. The assembler's numbers and masks: which values fit, and which bits a mask has. -/

namespace Sys2Proof.Machine

theorem fits_iff (n v : Nat) : fits n v = true ↔ v < 2 ^ n := by simp [fits]

/-- Every byte fits a byte operand. -/
@[simp] theorem fits_toNat (b : Byte) : fits 8 b.toNat = true := (fits_iff 8 _).mpr b.isLt

@[simp] theorem toByte_toNat (b : Byte) : toByte b.toNat = b := by simp [toByte]

/-- What a line assembles to, by its well-formedness. -/
theorem assemble_eq (l : AsmLine) :
    assemble l = if l.wf = true then .ok (expandLine l) else .error .operandOutOfRange := rfl

/-- A mask built up from `m` has the bits of `m` and the listed ones. -/
theorem foldl_mask_bit (ps : List Nat) (m : BitVec 6) (x : Nat) (hx : x < 6) :
    (ps.foldl (fun m p => m ||| (1#6 <<< p)) m).getLsbD x = true ↔ m.getLsbD x = true ∨ x ∈ ps := by
  induction ps generalizing m with
  | nil => simp
  | cons p ps ih =>
    have h : (m ||| (1#6 <<< p)).getLsbD x = true ↔ m.getLsbD x = true ∨ x = p := by
      simp [hx]
      grind
    rw [List.foldl_cons, ih, h, List.mem_cons, or_assoc]

/-- Bit x of a DEC line's mask is set exactly when x is listed (R70). -/
theorem maskOf_bit (ps : List Nat) (x : Nat) (hx : x < 6) : (maskOf ps).getLsbD x = true ↔ x ∈ ps := by
  rw [maskOf, foldl_mask_bit ps 0 x hx]
  simp

end Sys2Proof.Machine
end

