-- ==== Sys2Proof/Laws/State.lean ====
section
/-! SUPPORT. What each update of the state does to each field, one lemma per field per update. -/

namespace Sys2Proof.Machine

variable (s : State) (e : Entry) (r : Request) (p : Pins)

/-! ### push -/
@[simp] theorem push_params : (s.push e).params = s.params := rfl
@[simp] theorem push_tables : (s.push e).tables = s.tables := rfl
@[simp] theorem push_initDone : (s.push e).initDone = s.initDone := rfl
@[simp] theorem push_initCount : (s.push e).initCount = s.initCount := rfl
@[simp] theorem push_q : (s.push e).q = s.q ++ [e] := rfl
@[simp] theorem push_pins : (s.push e).pins = s.pins := rfl
@[simp] theorem push_trace : (s.push e).trace = s.trace := rfl
@[simp] theorem push_freeCount : (s.push e).freeCount = s.freeCount := rfl

/-! ### noteAccepted -/
@[simp] theorem noteAccepted_params : (s.noteAccepted r).params = s.params := rfl
@[simp] theorem noteAccepted_tables : (s.noteAccepted r).tables = s.tables := rfl
@[simp] theorem noteAccepted_initDone : (s.noteAccepted r).initDone = s.initDone := rfl
@[simp] theorem noteAccepted_initCount : (s.noteAccepted r).initCount = s.initCount := rfl
@[simp] theorem noteAccepted_q : (s.noteAccepted r).q = s.q := rfl
@[simp] theorem noteAccepted_pins : (s.noteAccepted r).pins = s.pins := rfl
@[simp] theorem noteAccepted_trace : (s.noteAccepted r).trace = .accepted r :: s.trace := rfl
@[simp] theorem noteAccepted_freeCount : (s.noteAccepted r).freeCount = s.freeCount := rfl

/-! ### resetEdge -/
@[simp] theorem resetEdge_params : s.resetEdge.params = s.params := rfl
@[simp] theorem resetEdge_initDone : s.resetEdge.initDone = false := rfl
@[simp] theorem resetEdge_initCount : s.resetEdge.initCount = 0 := rfl
@[simp] theorem resetEdge_q : s.resetEdge.q = [] := rfl
@[simp] theorem resetEdge_pins : s.resetEdge.pins = s.pins.tail := rfl
@[simp] theorem resetEdge_trace : s.resetEdge.trace = .reset :: s.trace := rfl
@[simp] theorem resetEdge_freeCount : s.resetEdge.freeCount = s.freeCount + 1 := rfl
theorem resetEdge_tables_rom (h : s.params.tableImpl = .rom) : s.resetEdge.tables = s.tables := by
  simp [State.resetEdge, h]
theorem resetEdge_tables_build (h : s.params.tableImpl = .build) :
    s.resetEdge.tables = .unbuilt s.freeCount := by
  simp [State.resetEdge, h]

/-! ### rspEdge -/
@[simp] theorem rspEdge_params : (s.rspEdge p).params = s.params := by unfold State.rspEdge; split <;> rfl
@[simp] theorem rspEdge_tables : (s.rspEdge p).tables = s.tables := by unfold State.rspEdge; split <;> rfl
@[simp] theorem rspEdge_initDone : (s.rspEdge p).initDone = s.initDone := by
  unfold State.rspEdge; split <;> rfl
@[simp] theorem rspEdge_initCount : (s.rspEdge p).initCount = s.initCount := by
  unfold State.rspEdge; split <;> rfl
@[simp] theorem rspEdge_freeCount : (s.rspEdge p).freeCount = s.freeCount := by
  unfold State.rspEdge; split <;> rfl

/-! ### initEdge -/
@[simp] theorem initEdge_params : s.initEdge.params = s.params := rfl
@[simp] theorem initEdge_tables : s.initEdge.tables = s.nextTables := rfl
@[simp] theorem initEdge_initDone : s.initEdge.initDone = (s.initDone || s.initRises) := rfl
@[simp] theorem initEdge_initCount :
    s.initEdge.initCount = if s.initDone then s.initCount else s.initCount + 1 := rfl
@[simp] theorem initEdge_q : s.initEdge.q = s.q := rfl
@[simp] theorem initEdge_trace : s.initEdge.trace = s.trace := rfl

/-! ### quietEdge -/
@[simp] theorem quietEdge_params : (s.quietEdge p).params = s.params := by simp [State.quietEdge]
@[simp] theorem quietEdge_tables : (s.quietEdge p).tables = s.nextTables := by
  simp [State.quietEdge, State.nextTables, State.initRises]
@[simp] theorem quietEdge_initDone : (s.quietEdge p).initDone = (s.initDone || s.initRises) := by
  simp [State.quietEdge, State.initRises]
@[simp] theorem quietEdge_initCount :
    (s.quietEdge p).initCount = if s.initDone then s.initCount else s.initCount + 1 := by
  simp [State.quietEdge]
theorem quietEdge_q : (s.quietEdge p).q = (s.rspEdge p).q := rfl
theorem quietEdge_trace : (s.quietEdge p).trace = (s.rspEdge p).trace := rfl
@[simp] theorem quietEdge_pins : (s.quietEdge p).pins = s.pins.tail := rfl
@[simp] theorem quietEdge_freeCount : (s.quietEdge p).freeCount = s.freeCount + 1 := rfl

/-- A transferring response leaves Q and is recorded; the others age. -/
theorem quietEdge_delivers {x : Response} (h : s.delivers p = some x) :
    (s.quietEdge p).q = s.q.tail.map Entry.older ∧
      (s.quietEdge p).trace = .delivered x :: s.trace := by
  simp [quietEdge_q, quietEdge_trace, State.rspEdge, h]

/-- No response transfers: every entry ages and nothing is recorded. -/
theorem quietEdge_keeps (h : s.delivers p = none) :
    (s.quietEdge p).q = s.q.map Entry.older ∧ (s.quietEdge p).trace = s.trace := by
  simp [quietEdge_q, quietEdge_trace, State.rspEdge, h]

/-! ### Entries that age -/
@[simp] theorem older_status : e.older.status = e.status := rfl
@[simp] theorem older_data : e.older.data = e.data := rfl
@[simp] theorem older_op : e.older.op = e.op := rfl
@[simp] theorem older_age : e.older.age = e.age + 1 := rfl
@[simp] theorem older_response : e.older.response = e.response := rfl

end Sys2Proof.Machine
end

