-- ==== Sys2Proof/Laws/Field.lean ====
section
/-! SUPPORT. The field product is linear in each argument (spec/40_field_arithmetic.md R81, R82), and a
property of all bytes that XOR keeps need only be checked on the eight powers of x. -/

namespace Sys2Proof.Machine

/-! ### The carry-less product -/

/-- The term of R81's loop for one set bit. -/
def clterm (a : Byte) (b : Byte) (i : Nat) : BitVec 16 :=
  if b.getLsbD i then a.setWidth 16 <<< i else 0

theorem clmul_eq_terms (a b : Byte) :
    clmul a b = clterm a b 0 ^^^ clterm a b 1 ^^^ clterm a b 2 ^^^ clterm a b 3
      ^^^ clterm a b 4 ^^^ clterm a b 5 ^^^ clterm a b 6 ^^^ clterm a b 7 := by
  have step : ∀ (p : BitVec 16) (i : Nat),
      (if b.getLsbD i then p ^^^ (a.setWidth 16 <<< i) else p) = p ^^^ clterm a b i := by
    intro p i
    unfold clterm
    split <;> simp
  unfold clmul
  simp only [step]
  simp [List.range, List.range.loop, BitVec.xor_assoc]

theorem clterm_xor_left (a a' b : Byte) (i : Nat) :
    clterm (a ^^^ a') b i = clterm a b i ^^^ clterm a' b i := by
  unfold clterm
  split <;> simp [BitVec.setWidth_xor, BitVec.shiftLeft_xor_distrib]

theorem clterm_xor_right (a b b' : Byte) (i : Nat) :
    clterm a (b ^^^ b') i = clterm a b i ^^^ clterm a b' i := by
  unfold clterm
  rw [BitVec.getLsbD_xor]
  cases b.getLsbD i <;> cases b'.getLsbD i <;> simp

theorem clmul_xor_left (a a' b : Byte) : clmul (a ^^^ a') b = clmul a b ^^^ clmul a' b := by
  simp only [clmul_eq_terms, clterm_xor_left]
  ac_rfl

theorem clmul_xor_right (a b b' : Byte) : clmul a (b ^^^ b') = clmul a b ^^^ clmul a b' := by
  simp only [clmul_eq_terms, clterm_xor_right]
  ac_rfl

/-! ### The reduction -/

theorem bitlen_le_iff (p : BitVec 16) (n : Nat) : bitlen p ≤ n ↔ p.toNat < 2 ^ n := by
  unfold bitlen
  by_cases h : p = 0
  · simp [h]
  · have h0 : p.toNat ≠ 0 := by simpa [BitVec.toNat_eq] using h
    rw [if_neg h, ← Nat.log2_lt h0]
    omega

/-- One step of R82's loop over the bit positions: clear bit 8 + k if it is set. -/
def clearBit (k : Nat) (p : BitVec 16) : BitVec 16 :=
  if p.getLsbD (8 + k) then p ^^^ (0x11B#16 <<< k) else p

/-- R82's second form, "for d in 15 down to 8", for the k lowest of those positions. -/
def reduceFor : Nat → BitVec 16 → BitVec 16
  | 0, p => p
  | k + 1, p => reduceFor k (clearBit k p)

theorem clearBit_xor (k : Nat) (p q : BitVec 16) :
    clearBit k (p ^^^ q) = clearBit k p ^^^ clearBit k q := by
  unfold clearBit
  rw [BitVec.getLsbD_xor]
  cases p.getLsbD (8 + k) <;> cases q.getLsbD (8 + k) <;> simp
  · ac_rfl
  · ac_rfl
  · rw [show p ^^^ 283#16 <<< k ^^^ (q ^^^ 283#16 <<< k)
        = p ^^^ q ^^^ (283#16 <<< k ^^^ 283#16 <<< k) by ac_rfl]
    simp

theorem reduceFor_xor (k : Nat) (p q : BitVec 16) :
    reduceFor k (p ^^^ q) = reduceFor k p ^^^ reduceFor k q := by
  induction k generalizing p q with
  | zero => rfl
  | succ k ih => simp only [reduceFor, clearBit_xor, ih]

theorem toNat_lt_of_msb_clear (p : BitVec 16) (n : Nat) (h : p.toNat < 2 ^ (n + 1))
    (hb : p.getLsbD n = false) : p.toNat < 2 ^ n := by
  apply Nat.lt_pow_two_of_testBit
  intro i hi
  rcases Nat.lt_or_eq_of_le hi with hlt | rfl
  · exact Nat.testBit_lt_two_pow (Nat.lt_of_lt_of_le h (Nat.pow_le_pow_right (by decide) hlt))
  · exact hb

theorem clearBit_lt (k : Nat) (hk : k < 8) (p : BitVec 16) (h : p.toNat < 2 ^ (8 + (k + 1))) :
    (clearBit k p).toNat < 2 ^ (8 + k) := by
  have key : ∀ q : BitVec 16, q.toNat < 2 ^ (8 + k + 1) → q.getLsbD (8 + k) = true →
      (q ^^^ (0x11B#16 <<< k)).toNat < 2 ^ (8 + k) := by
    intro q hq hb
    apply toNat_lt_of_msb_clear
    · rw [BitVec.toNat_xor]
      apply Nat.xor_lt_two_pow hq
      interval_cases k <;> decide
    · rw [BitVec.getLsbD_xor, hb]
      interval_cases k <;> decide
  unfold clearBit
  split
  · next hb => exact key p h hb
  · next hb => exact toNat_lt_of_msb_clear p _ h (by simpa using hb)

theorem reduceLoop_eq_for (k : Nat) (hk : k ≤ 8) (fuel : Nat) (hf : k ≤ fuel) (p : BitVec 16)
    (h : p.toNat < 2 ^ (8 + k)) : reduceLoop fuel p = reduceFor k p := by
  induction k generalizing fuel p with
  | zero =>
    cases fuel with
    | zero => rfl
    | succ f => simp [reduceLoop, reduceFor, (bitlen_le_iff p 8).mpr h]
  | succ k ih =>
    obtain ⟨f, rfl⟩ : ∃ f, fuel = f + 1 := ⟨fuel - 1, by omega⟩
    have hlt := clearBit_lt k (by omega) p h
    by_cases hb : p.getLsbD (8 + k) = true
    · have hlen : bitlen p = 9 + k := by
        have h1 := (bitlen_le_iff p (9 + k)).mpr (by rw [show 9 + k = 8 + (k + 1) by omega]; exact h)
        have h2 : ¬ bitlen p ≤ 8 + k := by
          rw [bitlen_le_iff]
          have := Nat.ge_two_pow_of_testBit hb
          omega
        omega
      have hc : clearBit k p = p ^^^ (0x11B#16 <<< k) := by simp [clearBit, hb]
      rw [reduceLoop, if_pos (by omega), hlen, show 9 + k - 9 = k by omega, ← hc]
      exact ih (by omega) f (by omega) _ hlt
    · have hc : clearBit k p = p := by simp [clearBit, hb]
      rw [reduceFor, hc]
      exact ih (by omega) (f + 1) (by omega) p (by simpa [hc] using hlt)

theorem reduce_eq_for (p : BitVec 16) : reduce p = (reduceFor 8 p).extractLsb' 0 8 := by
  rw [reduce, reduceLoop_eq_for 8 (le_refl 8) 8 (le_refl 8) p (by have := p.isLt; omega)]

theorem reduce_xor (p q : BitVec 16) : reduce (p ^^^ q) = reduce p ^^^ reduce q := by
  simp only [reduce_eq_for, reduceFor_xor]
  ext i hi
  simp

/-! ### The field product -/

theorem gfmul_xor_left (a a' b : Byte) : gfmul (a ^^^ a') b = gfmul a b ^^^ gfmul a' b := by
  simp only [gfmul, clmul_xor_left, reduce_xor]

theorem gfmul_xor_right (a b b' : Byte) : gfmul a (b ^^^ b') = gfmul a b ^^^ gfmul a b' := by
  simp only [gfmul, clmul_xor_right, reduce_xor]

/-- x^i as a byte. -/
def basis (i : Fin 8) : Byte := 1#8 <<< i.val

/-- A byte is the sum of the powers of x at its set bits. -/
theorem byte_eq_sum_basis (a : Byte) :
    a = (if a.getLsbD 0 then basis 0 else 0) ^^^ (if a.getLsbD 1 then basis 1 else 0)
      ^^^ (if a.getLsbD 2 then basis 2 else 0) ^^^ (if a.getLsbD 3 then basis 3 else 0)
      ^^^ (if a.getLsbD 4 then basis 4 else 0) ^^^ (if a.getLsbD 5 then basis 5 else 0)
      ^^^ (if a.getLsbD 6 then basis 6 else 0) ^^^ (if a.getLsbD 7 then basis 7 else 0) := by
  revert a
  decide +kernel

/-- A property that holds of 0 and of the powers of x, and that XOR keeps, holds of every byte. -/
theorem byte_xor_induction {P : Byte → Prop} (zero : P 0) (one : ∀ i, P (basis i))
    (xor : ∀ a b, P a → P b → P (a ^^^ b)) (a : Byte) : P a := by
  have bit : ∀ i : Fin 8, P (if a.getLsbD i.val then basis i else 0) := by
    intro i
    split
    · exact one i
    · exact zero
  rw [byte_eq_sum_basis a]
  exact xor _ _ (xor _ _ (xor _ _ (xor _ _ (xor _ _ (xor _ _ (xor _ _ (bit 0) (bit 1)) (bit 2))
    (bit 3)) (bit 4)) (bit 5)) (bit 6)) (bit 7)

end Sys2Proof.Machine
end

