-- ==== Sys2Proof/Laws/Tables.lean ====
section
/-! SUPPORT. One read and one write of a table memory, its canonical form, and the constant content of
the tables against rules R40 to R43. -/

namespace Sys2Proof.Machine

/-! ### Read after write -/

@[simp] theorem read_nil (t : TableName) (i : Fin (size t)) : Memory.read t [] i = constByte t i := rfl

theorem lookup_cell (j : Nat) (c : Host.Cell) (m : Memory) :
    List.lookup j (c :: m) = if j = c.1 then some c.2 else List.lookup j m := by
  obtain ⟨k, w⟩ := c
  by_cases h : j = k
  · simp [h]
  · rw [List.lookup_cons, beq_eq_false_iff_ne.mpr h, if_neg h]

theorem lookup_insert_same (i : Nat) (v : Byte) (m : Memory) :
    List.lookup i (Memory.insert i v m) = some v := by
  induction m with
  | nil => simp [Memory.insert]
  | cons c m ih =>
    unfold Memory.insert
    split
    · simp
    · split
      · simp
      · next _ hne => rw [lookup_cell, if_neg hne, ih]

theorem lookup_insert_other (i j : Nat) (h : j ≠ i) (v : Byte) (m : Memory) :
    List.lookup j (Memory.insert i v m) = List.lookup j m := by
  induction m with
  | nil => rw [Memory.insert, lookup_cell, if_neg h]
  | cons c m ih =>
    unfold Memory.insert
    split
    · rw [lookup_cell, if_neg h]
    · split
      · next _ heq => rw [lookup_cell, lookup_cell, if_neg h, if_neg (heq ▸ h)]
      · rw [lookup_cell, lookup_cell, ih]

theorem lookup_erase_same (i : Nat) (m : Memory) :
    List.lookup i (m.filter (fun c => c.1 != i)) = none := by
  induction m with
  | nil => rfl
  | cons c m ih =>
    by_cases h : c.1 = i
    · rw [List.filter_cons_of_neg (by simp [h]), ih]
    · rw [List.filter_cons_of_pos (by simp [h]), lookup_cell, if_neg (Ne.symm h), ih]

theorem lookup_erase_other (i j : Nat) (h : j ≠ i) (m : Memory) :
    List.lookup j (m.filter (fun c => c.1 != i)) = List.lookup j m := by
  induction m with
  | nil => rfl
  | cons c m ih =>
    by_cases hc : c.1 = i
    · rw [List.filter_cons_of_neg (by simp [hc]), ih, lookup_cell, if_neg (hc ▸ h)]
    · rw [List.filter_cons_of_pos (by simp [hc]), lookup_cell, lookup_cell, ih]

/-- A read after a write to the same index gives the value written. -/
@[simp] theorem read_write_same (t : TableName) (m : Memory) (i : Fin (size t)) (v : Byte) :
    (m.write t i v).read t i = v := by
  by_cases h : v = constByte t i
  · rw [Memory.write, if_pos h, Memory.read, lookup_erase_same, h]
  · rw [Memory.write, if_neg h, Memory.read, lookup_insert_same]

/-- A write leaves every other index alone. -/
theorem read_write_other (t : TableName) (m : Memory) (i j : Fin (size t)) (h : j ≠ i) (v : Byte) :
    (m.write t i v).read t j = m.read t j := by
  have hv : j.val ≠ i.val := fun e => h (Fin.ext e)
  by_cases hc : v = constByte t i
  · rw [Memory.write, if_pos hc, Memory.read, lookup_erase_other _ _ hv, Memory.read]
  · rw [Memory.write, if_neg hc, Memory.read, lookup_insert_other _ _ hv, Memory.read]

theorem read_write (t : TableName) (m : Memory) (i j : Fin (size t)) (v : Byte) :
    (m.write t i v).read t j = if j = i then v else m.read t j := by
  split
  · next h => rw [h, read_write_same]
  · next h => rw [read_write_other t m i j h v]

/-! ### The canonical form -/

theorem wf_iff (t : TableName) (m : Memory) :
    m.wf t = true ↔ m.Pairwise (fun c d => c.1 < d.1) ∧ ∀ c ∈ m, cellOk t c = true := by
  simp [Memory.wf, List.all_eq_true]

theorem mem_insert (i : Nat) (v : Byte) (m : Memory) (c : Host.Cell)
    (h : c ∈ Memory.insert i v m) : c = (i, v) ∨ c ∈ m := by
  induction m with
  | nil => simpa [Memory.insert] using h
  | cons d m ih =>
    unfold Memory.insert at h
    split at h
    · simpa using h
    · split at h
      · rcases List.mem_cons.mp h with rfl | h
        · exact .inl rfl
        · exact .inr (List.mem_cons_of_mem _ h)
      · rcases List.mem_cons.mp h with rfl | h
        · exact .inr List.mem_cons_self
        · rcases ih h with h | h
          · exact .inl h
          · exact .inr (List.mem_cons_of_mem _ h)

theorem insert_sorted (i : Nat) (v : Byte) (m : Memory)
    (h : m.Pairwise (fun c d => c.1 < d.1)) :
    (Memory.insert i v m).Pairwise (fun c d => c.1 < d.1) := by
  induction m with
  | nil => simp [Memory.insert]
  | cons c m ih =>
    obtain ⟨hc, hm⟩ := List.pairwise_cons.mp h
    unfold Memory.insert
    split
    · next hlt =>
      refine List.pairwise_cons.mpr ⟨fun d hd => ?_, h⟩
      rcases List.mem_cons.mp hd with rfl | hd
      · exact hlt
      · exact lt_trans hlt (hc d hd)
    · split
      · next _ heq => exact List.pairwise_cons.mpr ⟨fun d hd => heq ▸ hc d hd, hm⟩
      · next h1 h2 =>
        refine List.pairwise_cons.mpr ⟨fun d hd => ?_, ih hm⟩
        rcases mem_insert i v m d hd with rfl | hd
        · show c.1 < i
          omega
        · exact hc d hd

/-- Every write keeps the canonical form. -/
theorem write_wf (t : TableName) (m : Memory) (i : Fin (size t)) (v : Byte) (h : m.wf t = true) :
    (m.write t i v).wf t = true := by
  obtain ⟨hs, hc⟩ := (wf_iff t m).mp h
  unfold Memory.write
  split
  · exact (wf_iff _ _).mpr ⟨hs.filter _, fun c hm => hc c (List.mem_filter.mp hm).1⟩
  · next hv =>
    refine (wf_iff _ _).mpr ⟨insert_sorted _ _ _ hs, fun c hm => ?_⟩
    rcases mem_insert _ _ _ _ hm with rfl | hm
    · simp [cellOk, hv]
    · exact hc c hm

/-- The memory that holds a given function is canonical. -/
theorem ofFn_wf (t : TableName) (f : Nat → Byte) : (Memory.ofFn t f).wf t = true := by
  refine (wf_iff _ _).mpr ⟨List.Pairwise.filter _ ?_, fun c hm => (List.mem_filter.mp hm).2⟩
  rw [List.pairwise_map]
  exact List.pairwise_lt_range

@[simp] theorem rom_wf : Tables.rom.wf = true := rfl

theorem unbuilt_wf (n : Nat) : (Tables.unbuilt n).wf = true := by
  simp [Tables.wf, Tables.unbuilt, ofFn_wf]

/-! ### The constant content -/

theorem expConst_succ : ∀ i : Fin 254,
    expConst[i.val + 1]'(by omega) = gfmul (expConst[i.val]'(by omega)) generator := by
  decide +kernel

theorem expConst_zero : expConst[0] = pow generator 0 := by decide +kernel

/-- The listing R47 is the powers of the generator. -/
theorem expConst_eq_pow (i : Nat) (h : i < 255) : expConst[i] = pow generator i := by
  induction i with
  | zero => exact expConst_zero
  | succ i ih =>
    have := expConst_succ ⟨i, by omega⟩
    rw [this, ih (by omega)]
    rfl

/-- The listing R48 against R47, at every nonzero byte. -/
theorem logConst_spec : ∀ v : Fin 255,
    ∃ h : (logConst[v.val + 1]'(by omega)).toNat < 255,
      expConst[(logConst[v.val + 1]'(by omega)).toNat] = BitVec.ofNat 8 (v.val + 1) := by
  decide +kernel

/-- The listing R113 at every nonzero byte. -/
theorem invConst_spec : ∀ a : Fin 255,
    gfmul (BitVec.ofNat 8 (a.val + 1)) (invConst[a.val + 1]'(by omega)) = 1 := by
  decide +kernel

/-- R42: the constant MULTAB at the index {a, b}. -/
theorem mulConst_eq (a b : Byte) : mulConst (a ++ b).toNat = gfmul a b := by
  have hb := b.isLt
  have h : (a ++ b).toNat = a.toNat * 256 + b.toNat := by
    rw [BitVec.toNat_append, ← Nat.shiftLeft_add_eq_or_of_lt hb, Nat.shiftLeft_eq]
  have h1 : BitVec.ofNat 8 ((a ++ b).toNat / 256) = a := by
    rw [h, show (a.toNat * 256 + b.toNat) / 256 = a.toNat by omega]
    simp
  have h2 : BitVec.ofNat 8 (a ++ b).toNat = b := by
    apply BitVec.eq_of_toNat_eq
    rw [BitVec.toNat_ofNat, h]
    omega
  rw [mulConst, h1, h2]

/-- The constant content is what rules R40 to R43 define. -/
theorem rom_valid : Tables.rom.Valid where
  exp i := expConst_eq_pow i.val i.isLt
  log v hv := by
    have hv0 : v.toNat ≠ 0 := by simpa [BitVec.toNat_eq] using hv
    have hlt := v.isLt
    obtain ⟨h, he⟩ := logConst_spec ⟨v.toNat - 1, by omega⟩
    have hr : Tables.rom.readLog v = logConst[v.toNat - 1 + 1]'(by omega) := by
      show logConst[v.toNat] = _
      congr 1
      omega
    rw [hr]
    refine ⟨h, ?_⟩
    rw [← expConst_eq_pow _ h, he]
    simp [show v.toNat - 1 + 1 = v.toNat by omega]
  multab a b := mulConst_eq a b
  invZero := by decide +kernel
  inv a ha := by
    have ha0 : a.toNat ≠ 0 := by simpa [BitVec.toNat_eq] using ha
    have hlt := a.isLt
    have h := invConst_spec ⟨a.toNat - 1, by omega⟩
    have hr : Tables.rom.readInv a = invConst[a.toNat - 1 + 1]'(by omega) := by
      show invConst[a.toNat] = _
      congr 1
      omega
    rw [hr]
    simpa [show a.toNat - 1 + 1 = a.toNat by omega] using h

end Sys2Proof.Machine
end

