-- ==== Sys2Proof/Laws/Ops.lean ====
section
/-! SUPPORT. What the shared operations can do, once: completing a request, the strategies on valid tables,
and what any instruction's meaning does to the state. -/

namespace Sys2Proof.Machine

/-! ### Completing a request -/

@[simp] theorem respond_eq (op : OpCode) (st : Status) (d : Data) (s : State) :
    respond op st d s = .next (s.push ⟨st, d, op, 0⟩) := rfl

@[simp] theorem raise_eq (op : OpCode) (e : Error) (s : State) :
    raise op e s = .next (s.push ⟨errorStatus e, 0, op, 0⟩) := rfl

/-- Every meaning completes: one entry of age 0, with the instruction's code, joins Q, and nothing else
changes. -/
theorem exec_next (i : Instr) (s : State) :
    ∃ st d, exec i s = .next (s.push ⟨st, d, i.op, 0⟩) := by
  cases i with
  | dec c0 c1 c2 c3 c4 c5 present =>
    simp only [exec, execDec]
    split
    · exact ⟨_, _, rfl⟩
    · exact ⟨_, _, rfl⟩
  | _ => exact ⟨_, _, rfl⟩

/-- The inversion of `exec_next`. -/
theorem exec_inv {i : Instr} {s s' : State} (h : exec i s = .next s') :
    ∃ e : Entry, e.op = i.op ∧ e.age = 0 ∧ s' = s.push e := by
  obtain ⟨st, d, h'⟩ := exec_next i s
  rw [h'] at h
  exact ⟨⟨st, d, i.op, 0⟩, rfl, rfl, (Host.Outcome.next.inj h).symm⟩

/-! ### The field, as far as the tables need it -/

theorem gfmul_zero_left (b : Byte) : gfmul 0 b = 0 := by
  have := gfmul_xor_left 0 0 b
  simpa using this

theorem gfmul_zero_right (a : Byte) : gfmul a 0 = 0 := by
  have := gfmul_xor_right a 0 0
  simpa using this

end Sys2Proof.Machine
end

