-- ==== Sys2Proof/Laws/Build.lean ====
section
/-! SUPPORT. The loops of the construction (spec/20_memory.md R45), what each writes and leaves alone; the
canonical form through them; and that canonical memories which read alike are equal. -/

namespace Sys2Proof.Machine

/-! ### The loops -/

/-- MULTAB's index {a, b} determines both bytes (R42). -/
theorem pairIndex_inj (a b a' b' : Byte) : (a ++ b).toFin = (a' ++ b').toFin ↔ a = a' ∧ b = b' := by
  rw [BitVec.toFin_inj]
  constructor
  · intro h
    constructor
    · apply BitVec.eq_of_getLsbD_eq
      intro i hi
      have := congrArg (fun v : BitVec 16 => v.getLsbD (8 + i)) h
      simp only [BitVec.getLsbD_append] at this
      simpa using this
    · apply BitVec.eq_of_getLsbD_eq
      intro i hi
      have := congrArg (fun v : BitVec 16 => v.getLsbD i) h
      simp only [BitVec.getLsbD_append, hi] at this
      simpa using this
  · rintro ⟨rfl, rfl⟩; rfl

/-- R45's first loop over a list of exponents: what EXP then reads as. -/
theorem buildExpLog_exp (l : List (Fin 255)) (t : Tables) (j : Fin 255) :
    (l.foldl buildExpLog t).readExp j = if j ∈ l then pow generator j else t.readExp j := by
  induction l generalizing t with
  | nil => simp
  | cons i l ih =>
    rw [List.foldl_cons, ih]
    by_cases h : j ∈ l
    · simp [h]
    · rw [if_neg h]
      have : (buildExpLog t i).readExp j = if j = i then pow generator i else t.readExp j :=
        read_write TableName.exp t.exp i j (pow generator i)
      rw [this]
      by_cases hj : j = i <;> simp [hj, h]

/-- R45's first loop over a list of exponents: LOG at each power written, and LOG left alone elsewhere. -/
theorem buildExpLog_log (l : List (Fin 255)) (t : Tables) (v : Byte) :
    (∃ i ∈ l, pow generator i = v ∧ (l.foldl buildExpLog t).readLog v = BitVec.ofNat 8 i) ∨
    ((∀ i ∈ l, pow generator i ≠ v) ∧ (l.foldl buildExpLog t).readLog v = t.readLog v) := by
  induction l generalizing t with
  | nil => simp
  | cons i l ih =>
    rw [List.foldl_cons]
    have hw : (buildExpLog t i).readLog v =
        if v = pow generator i then BitVec.ofNat 8 i else t.readLog v := by
      by_cases h : v = pow generator i
      · rw [if_pos h, h]; exact read_write_same .log t.log (pow generator i).toFin _
      · rw [if_neg h]
        exact read_write_other .log t.log (pow generator i).toFin v.toFin
          (fun e => h (BitVec.toFin_inj.mp e)) _
    rcases ih (buildExpLog t i) with ⟨k, hk, he, hr⟩ | ⟨hn, hr⟩
    · exact .inl ⟨k, List.mem_cons_of_mem _ hk, he, hr⟩
    · rw [hr, hw]
      by_cases hv : v = pow generator i
      · exact .inl ⟨i, List.mem_cons_self, hv.symm, by simp [hv]⟩
      · refine .inr ⟨?_, if_neg hv⟩
        intro k hk
        rcases List.mem_cons.mp hk with rfl | hk
        · exact fun h => hv h.symm
        · exact hn k hk

/-- R45's inner loop over MULTAB, for one a. -/
theorem buildMul_row (l : List Byte) (t : Tables) (a : Byte) :
    let t' := l.foldl (fun t b => buildMul t a b) t
    t'.exp = t.exp ∧ t'.log = t.log ∧ t'.invtab = t.invtab ∧
    ∀ x y, t'.readMul x y = if x = a ∧ y ∈ l then gfmul x y else t.readMul x y := by
  induction l generalizing t with
  | nil => simp
  | cons b l ih =>
    simp only [List.foldl_cons]
    obtain ⟨h1, h2, h3, h4⟩ := ih (buildMul t a b)
    refine ⟨h1, h2, h3, ?_⟩
    intro x y
    rw [h4]
    have : (buildMul t a b).readMul x y = if x = a ∧ y = b then gfmul a b else t.readMul x y := by
      by_cases h : x = a ∧ y = b
      · rw [if_pos h, h.1, h.2]; exact read_write_same .multab t.multab (a ++ b).toFin _
      · rw [if_neg h]
        exact read_write_other .multab t.multab (a ++ b).toFin (x ++ y).toFin
          (fun e => h ((pairIndex_inj _ _ _ _).mp e)) _
    rw [this]
    by_cases hx : x = a <;> by_cases hy : y = b <;> by_cases hl : y ∈ l <;> simp [hx, hy, hl]

/-- R45's second loop: MULTAB, and the other tables left alone. -/
theorem buildMul_all (l m : List Byte) (t : Tables) :
    let t' := l.foldl (fun t a => m.foldl (fun t b => buildMul t a b) t) t
    t'.exp = t.exp ∧ t'.log = t.log ∧ t'.invtab = t.invtab ∧
    ∀ x y, t'.readMul x y = if x ∈ l ∧ y ∈ m then gfmul x y else t.readMul x y := by
  induction l generalizing t with
  | nil => simp
  | cons a l ih =>
    simp only [List.foldl_cons]
    obtain ⟨g1, g2, g3, g4⟩ := buildMul_row m t a
    obtain ⟨h1, h2, h3, h4⟩ := ih (m.foldl (fun t b => buildMul t a b) t)
    refine ⟨h1.trans g1, h2.trans g2, h3.trans g3, ?_⟩
    intro x y
    rw [h4, g4]
    by_cases hx : x = a <;> by_cases hy : y ∈ m <;> by_cases hl : x ∈ l <;> simp [hx, hy, hl]

/-- What the third loop stores at a. -/
def invOf (t : Tables) (a : Byte) : Byte :=
  if a = 0 then 1 else t.readExp (expIndex (255 - (t.readLog a).toNat))

/-- R45's third loop: INVTAB, and the other tables left alone. -/
theorem buildInv_all (l : List Byte) (t : Tables) :
    let t' := l.foldl buildInv t
    t'.exp = t.exp ∧ t'.log = t.log ∧ t'.multab = t.multab ∧
    ∀ x, t'.readInv x = if x ∈ l then invOf t x else t.readInv x := by
  induction l generalizing t with
  | nil => simp
  | cons a l ih =>
    simp only [List.foldl_cons]
    obtain ⟨h1, h2, h3, h4⟩ := ih (buildInv t a)
    refine ⟨h1, h2, h3, ?_⟩
    intro x
    rw [h4]
    have : (buildInv t a).readInv x = if x = a then invOf t a else t.readInv x := by
      by_cases h : x = a
      · rw [if_pos h, h]; exact read_write_same .invtab t.invtab a.toFin _
      · rw [if_neg h]
        exact read_write_other .invtab t.invtab a.toFin x.toFin
          (fun e => h (BitVec.toFin_inj.mp e)) _
    have hi : invOf (buildInv t a) x = invOf t x := rfl
    rw [this, hi]
    by_cases hx : x = a <;> by_cases hl : x ∈ l <;> simp [hx, hl]

/-- Every byte is one of the loop's values. -/
theorem mem_allBytes (b : Byte) : b ∈ allBytes := by
  simp only [allBytes, List.mem_map, List.mem_range]
  exact ⟨b.toNat, b.isLt, by simp⟩

/-! ### The canonical form -/

/-- The canonical form of all four tables. -/
theorem tables_wf_iff (t : Tables) : t.wf = true ↔ t.exp.wf .exp = true ∧ t.log.wf .log = true ∧
    t.multab.wf .multab = true ∧ t.invtab.wf .invtab = true := by
  simp [Tables.wf, and_assoc]

/-- A loop whose turns keep the canonical form keeps it. -/
theorem foldl_keeps_wf {α} (f : Tables → α → Tables) (hf : ∀ t a, t.wf = true → (f t a).wf = true)
    (l : List α) (t : Tables) (h : t.wf = true) : (l.foldl f t).wf = true := by
  induction l generalizing t with
  | nil => exact h
  | cons a l ih => exact ih _ (hf _ _ h)

/-- One turn of each loop keeps the canonical form. -/
theorem buildExpLog_wf (t : Tables) (i : Fin 255) (h : t.wf = true) : (buildExpLog t i).wf = true := by
  rw [tables_wf_iff] at h ⊢
  exact ⟨write_wf _ _ _ _ h.1, write_wf _ _ _ _ h.2.1, h.2.2.1, h.2.2.2⟩

theorem buildMul_wf (t : Tables) (a b : Byte) (h : t.wf = true) : (buildMul t a b).wf = true := by
  rw [tables_wf_iff] at h ⊢
  exact ⟨h.1, h.2.1, write_wf _ _ _ _ h.2.2.1, h.2.2.2⟩

theorem buildInv_wf (t : Tables) (a : Byte) (h : t.wf = true) : (buildInv t a).wf = true := by
  rw [tables_wf_iff] at h ⊢
  exact ⟨h.1, h.2.1, h.2.2.1, write_wf _ _ _ _ h.2.2.2⟩

/-- In a sorted memory, looking a cell up is finding it. -/
theorem lookup_iff_mem {m : Memory} (hs : m.Pairwise (fun c d => c.1 < d.1)) (a : Nat) (v : BitVec 8) :
    List.lookup a m = some v ↔ (a, v) ∈ m := by
  induction m with
  | nil => simp
  | cons c m ih =>
    obtain ⟨hc, hm⟩ := List.pairwise_cons.mp hs
    rw [lookup_cell]
    by_cases h : a = c.1
    · rw [if_pos h]
      constructor
      · intro h'
        have : (a, v) = c := by rw [h]; simp at h'; rw [← h']
        rw [this]
        exact List.mem_cons_self
      · intro h'
        rcases List.mem_cons.mp h' with h' | h'
        · rw [← h']
        · have := hc _ h'; simp at this; omega
    · rw [if_neg h, ih hm]
      constructor
      · exact List.mem_cons_of_mem _
      · intro h'
        rcases List.mem_cons.mp h' with h' | h'
        · exact absurd (by rw [← h']) h
        · exact h'

/-- In canonical form, a byte other than the constant content is read exactly where it is listed. -/
theorem mem_iff_read (t) (m : Memory) (h : m.wf t = true) (i : Fin (size t)) (v : Byte)
    (hv : v ≠ constByte t i) : (i.val, v) ∈ m ↔ m.read t i = v := by
  obtain ⟨hs, hc⟩ := (wf_iff t m).mp h
  rw [← lookup_iff_mem hs, Memory.read]
  constructor
  · intro h; rw [h]
  · intro h; split at h
    · next he => rw [he, h]
    · exact absurd h.symm hv

/-- Two canonical memories that read alike are equal data. -/
theorem memory_ext (t) (m m' : Memory) (h : m.wf t = true) (h' : m'.wf t = true)
    (he : ∀ i, m.read t i = m'.read t i) : m = m' := by
  obtain ⟨hs, hc⟩ := (wf_iff t m).mp h
  obtain ⟨hs', hc'⟩ := (wf_iff t m').mp h'
  have hmem : ∀ c : Host.Cell, c ∈ m ↔ c ∈ m' := by
    intro c
    have key : cellOk t c = true → (c ∈ m ↔ c ∈ m') := by
      intro hk
      unfold cellOk at hk
      split at hk
      · next hlt =>
        have hne : c.2 ≠ constByte t ⟨c.1, hlt⟩ := by simpa using hk
        have r1 := mem_iff_read t m h ⟨c.1, hlt⟩ c.2 hne
        have r2 := mem_iff_read t m' h' ⟨c.1, hlt⟩ c.2 hne
        rw [← he] at r2
        exact r1.trans r2.symm
      · cases hk
    constructor
    · intro hm; exact (key (hc c hm)).mp hm
    · intro hm; exact (key (hc' c hm)).mpr hm
  have n1 : m.Nodup := hs.imp (fun h => by intro e; rw [e] at h; omega)
  have n2 : m'.Nodup := hs'.imp (fun h => by intro e; rw [e] at h; omega)
  have hp : m.Perm m' := (List.perm_ext_iff_of_nodup n1 n2).mpr hmem
  exact hp.eq_of_pairwise (fun a b _ _ h1 h2 => by omega) hs hs'

/-- Every index of MULTAB is {a, b} of some bytes. -/
theorem exists_pairIndex (i : Fin 65536) : ∃ a b : Byte, (a ++ b).toFin = i := by
  refine ⟨BitVec.ofNat 8 (i / 256), BitVec.ofNat 8 (i % 256), ?_⟩
  apply Fin.ext
  show (_ ++ _ : BitVec 16).toNat = _
  rw [BitVec.toNat_append, ← Nat.shiftLeft_add_eq_or_of_lt (by simp; omega), Nat.shiftLeft_eq]
  simp
  have := i.isLt
  omega

end Sys2Proof.Machine
end

