-- ==== Sys2Proof/Laws/Decode.lean ====
section
/-! SUPPORT. The fields of a request word, the code of what it decodes to, and what a transferred request
can do. -/

namespace Sys2Proof.Machine

@[simp] theorem opField_word (r : Request) : opField r.word = r.op := by
  unfold opField Request.word
  ext i hi
  simp only [BitVec.getElem_extractLsb', BitVec.getLsbD_append]
  simp [show ¬ (80 + i < 32) by omega, show ¬ (80 + i - 32 < 48) by omega,
    show 80 + i - 32 - 48 = i by omega, hi]

@[simp] theorem aField_word (r : Request) : aField r.word = r.a := by
  unfold aField Request.word
  ext i hi
  simp only [BitVec.getElem_extractLsb', BitVec.getLsbD_append]
  simp [show ¬ (32 + i < 32) by omega, hi]

@[simp] theorem bField_word (r : Request) : bField r.word = r.b := by
  unfold bField Request.word
  ext i hi
  simp only [BitVec.getElem_extractLsb', BitVec.getLsbD_append]
  simp [hi]

/-- What decodes to an instruction has that instruction's code; what does not is a reserved code. -/
theorem decode_op (w : ReqWord) :
    (∃ i, decode w = .ok i ∧ i.op = opField w) ∨ decode w = .error (.reservedOp (opField w)) := by
  have h : ∀ n : Nat, (opField w).toNat = n → opField w = BitVec.ofNat 4 n := by
    intro n hn
    rw [← hn]
    simp
  unfold decode
  split <;> first
    | (next hn => exact .inl ⟨_, rfl, (h _ hn).symm⟩)
    | exact .inr rfl

/-- A word is the word of the request it carries. -/
theorem requestOf_word (w : ReqWord) : (requestOf w).word = w := by
  ext i hi
  simp only [requestOf, Request.word, opField, aField, bField]
  grind

/-! ### The fields of an encoded word, one lemma for each form (R63) -/

theorem wordBB_fields (op : OpCode) (a b : Byte) :
    opField (wordBB op a b) = op ∧ byteA (wordBB op a b) = a ∧ byteB (wordBB op a b) = b := by
  refine ⟨?_, ?_, ?_⟩ <;>
    (ext i hi; simp [opField, byteA, byteB, aField, bField, wordBB]) <;> grind

theorem wordWW_fields (op : OpCode) (a b : Packed) :
    opField (wordWW op a b) = op ∧ packedA (wordWW op a b) = a ∧ packedB (wordWW op a b) = b := by
  refine ⟨?_, ?_, ?_⟩ <;>
    (ext i hi; simp [opField, packedA, packedB, aField, bField, wordWW]) <;> grind

theorem wordCM_fields (op : OpCode) (c0 c1 c2 c3 c4 c5 : Byte) (m : BitVec 6) :
    let w := wordCM op c0 c1 c2 c3 c4 c5 m
    opField w = op ∧ symbolField w 0 = c0 ∧ symbolField w 1 = c1 ∧ symbolField w 2 = c2 ∧
      symbolField w 3 = c3 ∧ symbolField w 4 = c4 ∧ symbolField w 5 = c5 ∧ presentField w = m := by
  refine ⟨?_, ?_, ?_, ?_, ?_, ?_, ?_, ?_⟩ <;>
    (ext i hi; simp [opField, symbolField, presentField, aField, bField, wordCM]) <;> grind

end Sys2Proof.Machine
end

