-- ==== Sys2Proof/Laws/Channel.lean ====
section
/-! SUPPORT. What one rising edge can do, once: the three cases of an edge, and the cases of the response
channel. Invariants are derived from these. -/

namespace Sys2Proof.Machine

/-- A transferred request always completes: one entry of age 0 with its code joins Q. -/
theorem execRequest_next (r : Request) (s : State) :
    ∃ st d, execRequest r s = .next (s.push ⟨st, d, r.op, 0⟩) := by
  rcases decode_op r.word with ⟨i, hi, hop⟩ | hr
  · obtain ⟨st, d, he⟩ := exec_next i s
    exact ⟨st, d, by simp only [execRequest, hi]; rw [he, hop, opField_word]⟩
  · exact ⟨.illegalOp, 0, by simp only [execRequest, hr]; simp [execReserved, errorStatus]⟩

/-- An edge that samples rst = 1. -/
theorem edge_reset {p : Pins} (h : p.rst = true) (s : State) : edge p s = .next s.resetEdge := by
  simp [edge, h]

/-- An edge at which a request transfers. -/
theorem edge_accepts {p : Pins} {s : State} (h : s.accepts p = true) :
    edge p s = execRequest p.request ((s.quietEdge p).noteAccepted p.request) := by
  have hr : p.rst = false := by
    simp only [State.accepts, Bool.and_eq_true, Bool.not_eq_true'] at h
    exact h.1.1
  simp [edge, h, hr]

/-- An edge with rst = 0 at which no request transfers. -/
theorem edge_quiet {p : Pins} {s : State} (hr : p.rst = false) (h : s.accepts p = false) :
    edge p s = .next (s.quietEdge p) := by
  simp [edge, h, hr]

/-- The three cases of an edge. -/
theorem edge_cases {p : Pins} {s s' : State} (h : edge p s = .next s') :
    (p.rst = true ∧ s' = s.resetEdge) ∨
    (p.rst = false ∧ s.accepts p = true ∧
      ∃ st d, execRequest p.request ((s.quietEdge p).noteAccepted p.request) = .next s' ∧
        s' = ((s.quietEdge p).noteAccepted p.request).push ⟨st, d, p.reqOp, 0⟩) ∨
    (p.rst = false ∧ s.accepts p = false ∧ s' = s.quietEdge p) := by
  by_cases hr : p.rst = true
  · rw [edge_reset hr] at h
    exact .inl ⟨hr, (Host.Outcome.next.inj h).symm⟩
  · have hr : p.rst = false := by simpa using hr
    by_cases ha : s.accepts p = true
    · rw [edge_accepts ha] at h
      obtain ⟨st, d, he⟩ := execRequest_next p.request ((s.quietEdge p).noteAccepted p.request)
      have hs := h
      rw [he] at hs
      exact .inr (.inl ⟨hr, ha, st, d, h, (Host.Outcome.next.inj hs).symm⟩)
    · have ha : s.accepts p = false := by simpa using ha
      rw [edge_quiet hr ha] at h
      exact .inr (.inr ⟨hr, ha, (Host.Outcome.next.inj h).symm⟩)

/-- An accepting edge finds the block initialised and Q below MAX_OUTSTANDING. -/
theorem accepts_iff (s : State) (p : Pins) :
    s.accepts p = true ↔ p.rst = false ∧ p.reqValid = true ∧ s.initDone = true ∧
      s.q.length < s.params.maxOutstanding := by
  simp [State.accepts, State.reqReady, and_assoc]

/-- A transferring response is the head of Q, which is ripe. -/
theorem delivers_some {s : State} {p : Pins} {x : Response} (h : s.delivers p = some x) :
    ∃ e es, s.q = e :: es ∧ e.ripe s.params = true ∧ x = e.response ∧
      p.rst = false ∧ p.rspReady = true := by
  unfold State.delivers at h
  split at h
  · next hc =>
    unfold State.offered at h
    split at h
    · simp at h
    · next e es hq =>
      split at h
      · next hripe =>
        simp only [Bool.and_eq_true, Bool.not_eq_true'] at hc
        exact ⟨e, es, hq, hripe, by simpa using h.symm, hc.1, hc.2⟩
      · simp at h
  · simp at h

/-- A quiet edge never lengthens Q. -/
theorem quietEdge_length_le (s : State) (p : Pins) : (s.quietEdge p).q.length ≤ s.q.length := by
  rcases hd : s.delivers p with _ | x
  · simp [(quietEdge_keeps s p hd).1]
  · simp [(quietEdge_delivers s p hd).1]

/-- Every entry after a quiet edge is one from before it, an edge older. -/
theorem mem_quietEdge {s : State} {p : Pins} {e : Entry} (h : e ∈ (s.quietEdge p).q) :
    ∃ e' ∈ s.q, e = e'.older := by
  rcases hd : s.delivers p with _ | x
  · rw [(quietEdge_keeps s p hd).1] at h
    obtain ⟨e', he, rfl⟩ := List.mem_map.mp h
    exact ⟨e', he, rfl⟩
  · rw [(quietEdge_delivers s p hd).1] at h
    obtain ⟨e', he, rfl⟩ := List.mem_map.mp h
    exact ⟨e', List.mem_of_mem_tail he, rfl⟩

/-- What has transferred and what still waits, together, are the same after a quiet edge. -/
theorem quietEdge_responses (s : State) (p : Pins) :
    deliveredSinceReset (s.quietEdge p).trace ++ (s.quietEdge p).pending
      = deliveredSinceReset s.trace ++ s.pending := by
  have hmap : ∀ l : List Entry, (l.map Entry.older).map Entry.response = l.map Entry.response := by
    intro l
    simp [Function.comp_def]
  rcases hd : s.delivers p with _ | x
  · obtain ⟨hq, ht⟩ := quietEdge_keeps s p hd
    simp [State.pending, hq, ht, Function.comp_def]
  · obtain ⟨hq, ht⟩ := quietEdge_delivers s p hd
    obtain ⟨e, es, hs, _, rfl, _, _⟩ := delivers_some hd
    simp [State.pending, hq, ht, hs, deliveredSinceReset, Function.comp_def]

/-! ### The initialiser -/

@[simp] theorem finish_rom (t : Tables) : t.finish .rom = t := rfl
@[simp] theorem finish_build (t : Tables) : t.finish .build = t.build := rfl

/-- The cases of the tables after an edge with rst = 0. -/
theorem nextTables_done {s : State} (h : s.initDone = true) : s.nextTables = s.tables := by
  simp [State.nextTables, h]

theorem nextTables_rises {s : State} (h : s.initDone = false) (hr : s.initRises = true) :
    s.nextTables = s.tables.finish s.params.tableImpl := by
  simp [State.nextTables, h, hr]

theorem nextTables_rom {s : State} (h : s.params.tableImpl = .rom) : s.nextTables = s.tables := by
  simp [State.nextTables, h]

/-! ### Runs -/

/-- What every edge does to the ports and the parameters. -/
theorem edge_common {p : Pins} {s s' : State} (h : edge p s = .next s') :
    s'.pins = s.pins.tail ∧ s'.params = s.params := by
  rcases edge_cases h with ⟨_, rfl⟩ | ⟨_, _, st, d, _, rfl⟩ | ⟨_, _, rfl⟩ <;> simp

/-- A run's first step. -/
theorem run_succ {s s' : State} (h : step s = .next s') (k : Nat) :
    Host.Core.run Sys2Proof.core (k + 1) s = Host.Core.run Sys2Proof.core k s' := by
  have h' : Sys2Proof.core.step s = .next s' := h
  simp only [Host.Core.run, h']

/-- What the host says of k + 1 samples: of the next one, and of the k after it. -/
theorem comingPins_succ {s s' : State} {k : Nat} {ok : Pins → Prop}
    (hc : s.comingPins (k + 1) ok) (h : s'.pins = s.pins.tail) :
    ok s.nextPins ∧ s'.comingPins k ok := by
  obtain ⟨h1, h2⟩ := hc
  cases hp : s.pins with
  | nil => simp [hp] at h1
  | cons p ps =>
    rw [hp] at h1 h2 h
    refine ⟨h2 _ (by simp [State.nextPins, hp]), by rw [h]; simpa using h1, fun x hx => ?_⟩
    rw [h] at hx
    exact h2 x (by simp at hx ⊢; exact .inr hx)

end Sys2Proof.Machine
end

