-- ==== Sys2Proof/Laws/Operands.lean ====
section
/-! SUPPORT. What the placements of results in DATA hold, and the present positions of a mask. -/

namespace Sys2Proof.Machine

/-- Byte x of six packed symbols is the symbol at position x. -/
theorem packSymbols_bytes (c0 c1 c2 c3 c4 c5 : Byte) :
    let d := packSymbols c0 c1 c2 c3 c4 c5
    d.extractLsb' 0 8 = c0 ∧ d.extractLsb' 8 8 = c1 ∧ d.extractLsb' 16 8 = c2 ∧
      d.extractLsb' 24 8 = c3 ∧ d.extractLsb' 32 8 = c4 ∧ d.extractLsb' 40 8 = c5 := by
  refine ⟨?_, ?_, ?_, ?_, ?_, ?_⟩ <;> (ext i hi; simp [packSymbols]) <;> grind

/-- Byte k of four packed lanes is lane k. -/
theorem packLanes_lane (r0 r1 r2 r3 : Byte) :
    lane (packLanes r0 r1 r2 r3) 0 = r0 ∧ lane (packLanes r0 r1 r2 r3) 1 = r1 ∧
      lane (packLanes r0 r1 r2 r3) 2 = r2 ∧ lane (packLanes r0 r1 r2 r3) 3 = r3 := by
  refine ⟨?_, ?_, ?_, ?_⟩ <;> (ext i hi; simp [lane, packLanes]) <;> grind

/-- DATA of a DEC result. -/
theorem pairData_eq (y0 y1 : Byte) : pairData (y0, y1) = 0#32 ++ y1 ++ y0 := by
  simp only [pairData]
  ext i hi
  simp
  grind

/-- Two present positions with none below the second but the first are the first two listed. -/
theorem presentPositions_take : ∀ (present : BitVec 6) (x0 x1 : Fin 6), x0 < x1 →
    present.getLsbD x0 = true → present.getLsbD x1 = true →
    (∀ x : Fin 6, x < x1 → present.getLsbD x = true → x = x0) →
    (presentPositions present).take 2 = [x0, x1] := by
  decide +kernel

/-- A mask with no two distinct positions lists fewer than two. -/
theorem presentPositions_few : ∀ present : BitVec 6,
    (∀ x y : Fin 6, present.getLsbD x = true → present.getLsbD y = true → x = y) →
    (presentPositions present).length < 2 := by
  decide +kernel

/-- A mask with two distinct positions lists two to begin with, in rising order. -/
theorem presentPositions_many : ∀ (present : BitVec 6) (x y : Fin 6), x ≠ y →
    present.getLsbD x = true → present.getLsbD y = true →
    ∃ x0 x1 : Fin 6, x0 < x1 ∧ (presentPositions present).take 2 = [x0, x1] := by
  decide +kernel

/-- DEC's answer depends on the two lowest present positions alone. -/
theorem decodePair_two {mul : Byte → Byte → Byte} {inv : Byte → Byte} {cw : Codeword}
    {present : BitVec 6} {x0 x1 : Fin 6} (h : (presentPositions present).take 2 = [x0, x1]) :
    decodePair mul inv cw present =
      some (solvePair mul inv (point x0) (point x1) cw[x0] cw[x1]) := by
  unfold decodePair
  split
  · next a b l hp =>
    rw [hp] at h
    simp at h
    simp [h]
  · next hn =>
    exfalso
    match hp : presentPositions present with
    | [] => simp [hp] at h
    | [a] => simp [hp] at h
    | a :: b :: l => exact hn _ _ _ hp

/-- DEC fails exactly on R142's condition. -/
theorem decodePair_none_iff {mul : Byte → Byte → Byte} {inv : Byte → Byte} {cw : Codeword}
    {present : BitVec 6} : decodePair mul inv cw present = none ↔ insufficient present = true := by
  unfold decodePair insufficient popcount
  split
  · next hp => simp [hp]
  · next hn =>
    match hp : presentPositions present with
    | [] => simp
    | [a] => simp
    | a :: b :: l => exact absurd hp (hn _ _ _)

end Sys2Proof.Machine
end

