-- ==== Sys2Proof/Laws/PerInstr.lean ====
section
/-! SUPPORT. Families of statements about every instruction as syntax, one lemma for each constructor. -/

namespace Sys2Proof.Laws

/-- OP of an instruction's word is its code in the opcode map (spec/30_encoding.md R60, R66), and the code
is none of the reserved ones (R68). -/
def Code.Statement (i : Instr) : Prop :=
  opField (encode i) = i.op ∧ Machine.reservedOp i.op = false

theorem Code.add (a b : Byte) : Code.Statement (.add a b) :=
  ⟨(Machine.wordBB_fields 0x0 a b).1, rfl⟩
theorem Code.mulb (a b : Byte) : Code.Statement (.mulb a b) :=
  ⟨(Machine.wordBB_fields 0x1 a b).1, rfl⟩
theorem Code.mull (a b : Byte) : Code.Statement (.mull a b) :=
  ⟨(Machine.wordBB_fields 0x2 a b).1, rfl⟩
theorem Code.mult (a b : Byte) : Code.Statement (.mult a b) :=
  ⟨(Machine.wordBB_fields 0x3 a b).1, rfl⟩
theorem Code.mulp4 (a b : Packed) : Code.Statement (.mulp4 a b) :=
  ⟨(Machine.wordWW_fields 0x4 a b).1, rfl⟩
theorem Code.inv (a : Byte) : Code.Statement (.inv a) :=
  ⟨(Machine.wordBB_fields 0x5 a 0).1, rfl⟩
theorem Code.pow (base exponent : Byte) : Code.Statement (.pow base exponent) :=
  ⟨(Machine.wordBB_fields 0x6 base exponent).1, rfl⟩
theorem Code.enc (y0 y1 : Byte) : Code.Statement (.enc y0 y1) :=
  ⟨(Machine.wordBB_fields 0x7 y0 y1).1, rfl⟩
theorem Code.dec (c0 c1 c2 c3 c4 c5 : Byte) (present : BitVec 6) :
    Code.Statement (.dec c0 c1 c2 c3 c4 c5 present) :=
  ⟨(Machine.wordCM_fields 0x8 c0 c1 c2 c3 c4 c5 present).1, rfl⟩

end Sys2Proof.Laws
end

