-- ==== Sys2Proof/Tests/Slice0.lean ====
section
/-! SUPPORT. The model's own tests: ill-formed terms refused, words written out from the spec's encoding,
one step of each instruction with the answers of spec/95_test_vectors.md, and for every statement with
hypotheses a state and operands that meet them all together. -/

namespace Sys2Proof.Machine.Tests

-- One theorem after another: a thread for each would take more memory than the check allows.
set_option Elab.async false

/-! ### Well-formedness: an ill-formed term for each check -/

theorem test_params_wf : Params.program4.wf = true := by decide
theorem test_params_max_outstanding_zero :
    ({ Params.program4 with maxOutstanding := 0 }).wf = false := by decide
theorem test_params_latency_zero :
    ({ Params.program4 with lat := (Vector.replicate 16 1).set 15 0 }).wf = false := by decide
theorem test_line_wf : (AsmLine.dec 255 0 0 0 0 0 [0, 5]).wf = true := by decide
theorem test_line_byte_too_big :
    (AsmLine.add 256 0).wf = false ∧ (AsmLine.sub 0 256).wf = false ∧ (AsmLine.inv 256).wf = false := by
  decide
theorem test_line_word_too_big : (AsmLine.mulp4 0 0x100000000).wf = false := by decide
theorem test_line_symbol_too_big : (AsmLine.dec 0 0 0 0 0 256 []).wf = false := by decide
theorem test_line_position_too_big : (AsmLine.dec 0 0 0 0 0 0 [6]).wf = false := by decide
theorem test_line_position_twice : (AsmLine.dec 0 0 0 0 0 0 [1, 1]).wf = false := by decide
theorem test_line_raw_fields_too_big :
    (AsmLine.word 16 0 0).wf = false ∧ (AsmLine.word 0 0x1000000000000 0).wf = false ∧
      (AsmLine.word 0 0 0x100000000).wf = false := by decide

/-! ### Decoding words written out from R60, R63 and R66 (the words of spec/95) -/

theorem test_decode_add : decodeTableWord 88 0x000000000005700000083 = some (.add 0x57 0x83) := by decide
theorem test_decode_mulb : decodeTableWord 88 0x100000000000500000006 = some (.mulb 5 6) := by decide
theorem test_decode_mull : decodeTableWord 88 0x20000000000F600000003 = some (.mull 0xF6 3) := by decide
theorem test_decode_mult : decodeTableWord 88 0x3000000000053000000CA = some (.mult 0x53 0xCA) := by decide
theorem test_decode_mulp4 :
    decodeTableWord 88 0x4FFFF0102030405060708 = some (.mulp4 0x01020304 0x05060708) := by decide
theorem test_decode_inv : decodeTableWord 88 0x5000000000053FFFFFFFF = some (.inv 0x53) := by decide
theorem test_decode_pow : decodeTableWord 88 0x6000000000003000000FF = some (.pow 3 255) := by decide
theorem test_decode_enc : decodeTableWord 88 0x700000000000A00000014 = some (.enc 10 20) := by decide
theorem test_decode_dec :
    decodeTableWord 88 0x86C722836140AFFFFFFE4 =
      some (.dec 0x0A 0x14 0x36 0x28 0x72 0x6C 0b100100) := by decide
theorem test_decode_reserved :
    decode 0x9000000000000_00000000 = .error (.reservedOp 9) ∧
      decode 0xF000000000000_00000000 = .error (.reservedOp 15) := by decide
/-- Every one of the seven reserved codes is refused by the decoder, by its name (R68). -/
theorem test_decode_every_reserved_code :
    ([9, 10, 11, 12, 13, 14, 15] : List OpCode).all
      (fun op => decode (op ++ 0x123456789ABCDEF01234#80) = .error (.reservedOp op)) = true := by decide
theorem test_encode_dec :
    encode (.dec 0x0A 0x14 0x36 0x28 0x72 0x6C 0b100100) = 0x86C722836140A_00000024 := by decide
theorem test_encode_mulp4 : encode (.mulp4 0x80402010 0x02020202) = 0x4000080402010_02020202 := by decide

/-! ### The tables (spec/95 section 3) -/

theorem test_exp : Tables.rom.readExp 100 = 0x10 ∧ Tables.rom.readExp 254 = 0xF6 := by decide +kernel
theorem test_log : Tables.rom.readLog 0x53 = 48 ∧ Tables.rom.readLog 0xF6 = 254 := by decide +kernel
theorem test_multab : Tables.rom.readMul 0x57 0x83 = 0xC1 := by decide +kernel
theorem test_invtab : Tables.rom.readInv 0 = 1 ∧ Tables.rom.readInv 0x53 = 0xCA := by decide +kernel
/-- A written entry reads back, and writing the constant content again removes it from the list (R27 as
plain data: the canonical form). -/
theorem test_table_write :
    Memory.write .exp [] (5 : Fin 255) 0x77 = [(5, 0x77)] ∧
      Memory.write .exp [(5, 0x77)] (5 : Fin 255) 0x33 = [] := by decide +kernel
/-- One turn of the construction's loop rewrites a wrong entry (R45). -/
theorem test_build_turn : (buildMul { Tables.rom with multab := [(0x5783, 0)] } 0x57 0x83) = Tables.rom := by
  decide +kernel

/-! ### One step of each instruction, answers from spec/95 section 2 -/

/-- STATUS and DATA of the entry that joined Q last. -/
def answered (o : Host.Outcome State Fault Refusal) : Option (Status × Data) :=
  match o with
  | .next s => s.q.getLast?.map (fun e => (e.status, e.data))
  | .fault _ => none
  | .refused _ => none

/-- The answer to a request word offered right after reset, by a block with these two methods. -/
def run (w : Nat) (m : MulImpl := .table) (i : InvImpl := .log) : Option (Status × Data) :=
  answered (step ((State.resetWith { Params.program4 with mulImpl := m, invImpl := i }).withFetchWord 88 w))

theorem test_add : run 0x0000000000057_00000083 = some (.ok, 0xD4) := by decide
theorem test_add_ignores_other_bits : run 0x0FFFFFFFFFF57_FFFFFF83 = some (.ok, 0xD4) := by decide
theorem test_mulb_reduces : run 0x1000000000080_00000080 = some (.ok, 0x9A) := by decide +kernel
theorem test_mulb_largest : run 0x10000000000FF_000000FF = some (.ok, 0x13) := by decide +kernel
theorem test_mull_sum_508 : run 0x20000000000F6_000000F6 = some (.ok, 0x52) := by decide +kernel
theorem test_mull_zero : run 0x2000000000000_00000053 = some (.ok, 0) := by decide +kernel
theorem test_mult : run 0x3000000000057_00000083 = some (.ok, 0xC1) := by decide +kernel
theorem test_mult_inverse_pair : run 0x3000000000053_000000CA = some (.ok, 1) := by decide +kernel
theorem test_mulp4_lanes : run 0x4000080402010_02020202 = some (.ok, 0x1B804020) := by decide +kernel
theorem test_mulp4_by_log : run 0x4000001020304_15263748 .log = some (.ok, 0x154C593B) := by decide +kernel
theorem test_inv_zero :
    run 0x5000000000000_00000000 .bitwise .fermat = some (.ok, 1) ∧
      run 0x5000000000000_00000000 = some (.ok, 1) := by decide +kernel
theorem test_inv_every_method :
    run 0x50000000000F6_00000000 .table .log = some (.ok, 3) ∧
      run 0x5000000000001_00000000 .table .log = some (.ok, 1) ∧
      run 0x5000000000053_FFFFFFFF .table .table = some (.ok, 0xCA) ∧
      run 0x5000000000080_00000000 .log .fermat = some (.ok, 0x83) := by decide +kernel
theorem test_pow_order : run 0x6000000000003_000000FF = some (.ok, 1) := by decide +kernel
theorem test_pow_zero :
    run 0x6000000000000_00000000 = some (.ok, 1) ∧ run 0x6000000000000_000000FE = some (.ok, 0) := by
  decide +kernel
theorem test_enc : run 0x700000000000A_00000014 = some (.ok, 0x6C722836140A) := by decide +kernel
theorem test_enc_by_bitwise : run 0x7000000000053_000000CA .bitwise = some (.ok, 0x9801E37ACA53) := by
  decide +kernel
theorem test_dec_two_lowest :
    run 0x86C7228C9140A_0000003C = some (.ok, 0xF110) ∧
      run 0x84E280167CDAB_00000030 .log .table = some (.ok, 0xCDAB) := by decide +kernel
theorem test_dec_insufficient :
    run 0x86C722836140A_00000020 = some (.insufficientSymbols, 0) ∧
      run 0x86C722836140A_FFFFFFC0 = some (.insufficientSymbols, 0) := by decide +kernel
theorem test_reserved : run 0xA123456789ABC_DEF01234 = some (.illegalOp, 0) := by decide

/-! ### The channels (spec/95 Program 4) -/

/-- A block of Program 4, initialised, with the waiting response 0:000000000011 to MULB 5, 5. -/
def busy (ps : List Pins) : State where
  params := Params.program4
  tables := .rom
  initDone := true
  initCount := 1
  q := [⟨.ok, 0x11, 0x1, 0⟩]
  pins := ps
  trace := [.accepted ⟨0x1, 5, 5⟩]
  freeCount := 1

/-- The same block with LAT = 3, so that the response is not ripe yet. -/
def slow (ps : List Pins) : State :=
  { busy ps with params := { Params.program4 with lat := Vector.replicate 16 3 } }

/-- A block with MAX_OUTSTANDING = 1, so that Q is full. -/
def full (ps : List Pins) : State :=
  { busy ps with params := { Params.program4 with maxOutstanding := 1 } }

/-- Right after reset, with INIT_CYCLES = 2. -/
def starting (ps : List Pins) : State :=
  { State.resetWith { Params.program4 with initCycles := 2 } with pins := ps }

/-- The host offers ADD 1, 2 / nothing; takes a response / does not. -/
def offer (ready : Bool) : Pins := ⟨false, true, 0x0, 1, 2, ready⟩
def quiet (ready : Bool) : Pins := ⟨false, false, 0, 0, 0, ready⟩
def resetPins : Pins := ⟨true, true, 0x0, 1, 2, true⟩

theorem entry_legal : (⟨.ok, 0x11, 0x1, 0⟩ : Entry).Legal :=
  ⟨by decide, by decide, by decide, by decide⟩

theorem busy_inv (ps : List Pins) : (busy ps).Inv where
  params := (by decide : Params.program4.wf = true)
  tablesWf := rfl
  tablesValid _ := rom_valid
  count := rfl
  bound := (by decide : 1 ≤ 2)
  gated h := by cases h
  legal e he := by
    obtain rfl : e = ⟨.ok, 0x11, 0x1, 0⟩ := by simpa [busy] using he
    exact entry_legal

theorem busy_inOrder (ps : List Pins) : (busy ps).InOrder := by
  show [(⟨.ok, 0x11⟩ : Response)] = [answer ⟨0x1, 5, 5⟩]
  decide +kernel

theorem starting_inv (ps : List Pins) : (starting ps).Inv where
  params := (by decide : ({ Params.program4 with initCycles := 2 }).wf = true)
  tablesWf := rfl
  tablesValid _ := rom_valid
  count := Nat.zero_le _
  bound := Nat.zero_le _
  gated _ := rfl
  legal e he := by cases he

/-- Q after one edge. -/
def queueAfter (s : State) : Option (List Entry) :=
  match step s with
  | .next s' => some s'.q
  | .fault _ => none
  | .refused _ => none

/-- Edge 8 of Program 4: a response and a request transfer at one edge (D36). -/
theorem test_both_transfer : queueAfter (busy [offer true]) = some [⟨.ok, 3, 0x0, 0⟩] := by decide
/-- Edge 3: no response is taken, and a request joins the tail. -/
theorem test_request_joins_the_tail :
    queueAfter (busy [offer false]) = some [⟨.ok, 0x11, 0x1, 1⟩, ⟨.ok, 3, 0x0, 0⟩] := by decide
/-- Edge 4: Q is full before the edge, so the response leaves and the request is not accepted. -/
theorem test_full_accepts_nothing : queueAfter (full [offer true]) = some [] := by decide
/-- A response that is not ripe is not taken. -/
theorem test_unripe_stays : queueAfter (slow [quiet true]) = some [⟨.ok, 0x11, 0x1, 1⟩] := by decide
/-- Edge 5: reset wins (D35). -/
theorem test_reset_wins : queueAfter (busy [resetPins]) = some [] := by decide
/-- Edge 1: with INIT_CYCLES = 0 init_done rises at the first edge with rst = 0, and the request offered
there is not accepted. -/
theorem test_init_done_rises :
    (match step { State.reset with pins := [offer true] } with
      | .next s => decide (s.initDone = true ∧ s.q = [])
      | _ => false) = true := by decide

/-! ### The assembler (R70 to R72, spec/95) -/

theorem test_asm_dec :
    assembleLine ['d', 'E', 'c', ' ', '1', '0', ',', '2', '0', ',', '0', 'x', '3', '6', ',', '0', 'x', '2',
      '8', ',', '0', 'x', '7', '2', ',', '0', 'x', '6', 'C', ',', ' ', openBrace, '2', ',', ' ', '5',
      closeBrace, ' ', ';', 'x'] = .ok [.word 0x86C722836140A_00000024] := by decide +kernel
theorem test_asm_word :
    assembleLine ['.', 'w', 'o', 'r', 'd', ' ', 'C', '_', '0', '0', '0', '0', '0', '0', '0', '0', '0', '0',
      '5', '7', '_', '0', '0', '0', '0', '0', '0', '8', '3'] = .ok [.word 0xC000000000057_00000083] := by
  decide +kernel
theorem test_asm_rejects :
    assembleLine ['A', 'D', 'D', ' ', '2', '5', '6', ',', '1'] = .error .operandOutOfRange ∧
      assembleLine ['A', 'D', 'D', ' ', '1'] = .error .malformedOperands ∧
      assembleLine ['A', 'N', 'D', ' ', '1', ',', '1'] = .error .unknownMnemonic := by decide +kernel
theorem test_asm_text :
    assembleText ['I', 'N', 'V', ' ', '0', 'b', '1', '1', '\n', ';', '\n', 'D', 'I', 'V', ' ', '1', ',',
      '2'] =
      .ok [.word 0x5000000000003_00000000, .word 0x5000000000002_00000000, .multByLast 1] := by
  decide +kernel

/-! ### Witnesses: for every statement with hypotheses, something that meets them all -/

theorem witness_IgnoredBitsDoNotMatter :
    (0x0FFFFFFFFFF57_FFFFFF83 : ReqWord) ≠ 0x0000000000057_00000083 ∧
      (0x0FFFFFFFFFF57_FFFFFF83 : ReqWord) &&& usedBits (opField 0x0FFFFFFFFFF57_FFFFFF83) =
        0x0000000000057_00000083 &&& usedBits (opField 0x0FFFFFFFFFF57_FFFFFF83) ∧
      assemble (.div 1 2) = .ok [.word 0x5000000000002_00000000, .multByLast 1] ∧
      HostRequest.multByLast 1 ∈ [HostRequest.word 0x5000000000002_00000000, .multByLast 1] ∧
      ∀ op a b, AsmLine.div 1 2 ≠ .word op a b :=
  ⟨by decide, by decide, by decide +kernel, by decide, nofun⟩
theorem witness_EncodeOfDecodeKeepsTheNamedBits : decode 0x5000000000053_FFFFFFFF = .ok (.inv 0x53) := by
  decide
theorem witness_EveryWordDecodesToOneArm :
    (opField 0x86C722836140A_00000003).toNat = 8 ∧ (opField 0x9000000000000_00000000).toNat = 9 ∧
      (opField 0).toNat = 0 ∧ (opField 0xF000000000000_00000000).toNat = 15 := by decide
theorem witness_StepRunsTheDecodedInstruction :
    (busy [offer true]).nextPins.rst = false ∧ (busy [offer true]).nextPins.reqValid = true ∧
      (busy [offer true]).initDone = true ∧
      (busy [offer true]).q.length < (busy [offer true]).params.maxOutstanding ∧
      decode (busy [offer true]).nextPins.request.word = .ok (.add 1 2) := by decide
theorem witness_StepRunsAPlacedWord :
    1 ≤ (busy []).params.maxOutstanding ∧
      decodeTableWord 88 0x0000000000001_00000002 = some (.add 1 2) ∧
      (busy []).tables.Valid ∧ (busy []).initDone = true := ⟨by decide, by decide, rom_valid, rfl⟩
/-- Both ends of the reserved codes. -/
theorem witness_ReservedOpcodeIsAnsweredIllegalOp :
    ∀ op ∈ ([9, 15] : List OpCode),
      (busy [⟨false, true, op, 1, 2, true⟩]).nextPins.rst = false ∧
      (busy [⟨false, true, op, 1, 2, true⟩]).nextPins.reqValid = true ∧
      (busy [⟨false, true, op, 1, 2, true⟩]).initDone = true ∧
      (busy [⟨false, true, op, 1, 2, true⟩]).q.length <
        (busy [⟨false, true, op, 1, 2, true⟩]).params.maxOutstanding ∧
      9 ≤ (busy [⟨false, true, op, 1, 2, true⟩]).nextPins.reqOp.toNat := by decide
/-- The zero clause; and the sums 14, 255 and 508 of spec/95 section 2.2, on both sides of 255. -/
theorem witness_MullAnswersTheFieldProduct :
    ((0 : Byte) = 0 ∨ (0x53 : Byte) = 0) ∧ State.reset.tables.Valid ∧
      (0xFF : Byte) ≠ 0 ∧ (0x53 : Byte) ≠ 0 ∧ (0xCA : Byte) ≠ 0 ∧ (0xF6 : Byte) ≠ 0 ∧
      14 = (Tables.rom.readLog 0xFF).toNat + (Tables.rom.readLog 0xFF).toNat ∧
      (14 : Fin 255).val = (if 255 ≤ 14 then 14 - 255 else 14) ∧
      255 = (Tables.rom.readLog 0x53).toNat + (Tables.rom.readLog 0xCA).toNat ∧
      (0 : Fin 255).val = (if 255 ≤ 255 then 255 - 255 else 255) ∧
      508 = (Tables.rom.readLog 0xF6).toNat + (Tables.rom.readLog 0xF6).toNat ∧
      (253 : Fin 255).val = (if 255 ≤ 508 then 508 - 255 else 508) :=
  ⟨.inl rfl, rom_valid, by decide +kernel⟩
theorem witness_MultAnswersTheFieldProduct : State.reset.tables.Valid := rom_valid
theorem witness_Mulp4AnswersTheProductOfEachLane : State.reset.tables.Valid := rom_valid
theorem witness_InvAnswersTheInverse :
    State.reset.tables.Valid ∧ (0 : Byte) = 0 ∧ (1 : Byte) ≠ 0 := ⟨rom_valid, rfl, by decide⟩
theorem witness_EncAnswersTheCodeword : State.reset.tables.Valid ∧ 0 < 6 ∧ 5 < 6 :=
  ⟨rom_valid, by decide, by decide⟩
theorem witness_PowAnswersTheIteratedProduct : 1 ≤ 1 ∧ (1 : Byte) ≠ 0 ∧ (255 : Byte) ≠ 0 := by decide
/-- The pair (2, 5) of the S1 codeword (spec/95 section 2.7), and the topmost pair (4, 5). -/
theorem witness_DecAnswersFromTheTwoLowestPositions :
    State.reset.tables.Valid ∧
      ((2 : Fin 6) < 5 ∧ (0b100100#6).getLsbD 2 = true ∧ (0b100100#6).getLsbD 5 = true ∧
        (∀ x : Fin 6, x < 5 → (0b100100#6).getLsbD x = true → x = 2) ∧
        (#v[0x0A, 0x14, 0x36, 0x28, 0x72, 0x6C] : Vector Byte 6)[2] = 0x36 ∧
        (#v[0x0A, 0x14, 0x36, 0x28, 0x72, 0x6C] : Vector Byte 6)[5] = 0x6C ∧
        gfmul (BitVec.ofNat 8 2 ^^^ BitVec.ofNat 8 5) 0xD1 = 1) ∧
      ((4 : Fin 6) < 5 ∧ (0b110000#6).getLsbD 4 = true ∧ (0b110000#6).getLsbD 5 = true ∧
        (∀ x : Fin 6, x < 5 → (0b110000#6).getLsbD x = true → x = 4) ∧
        gfmul (BitVec.ofNat 8 4 ^^^ BitVec.ofNat 8 5) 1 = 1) ∧
      popcount 0 < 2 ∧ popcount 0b100000 < 2 ∧ ¬ popcount 0b110000 < 2 := by
  refine ⟨rom_valid, ?_, ?_, ?_⟩ <;> decide +kernel
/-- The empty mask, and each mask with one position. -/
theorem witness_DecRejectsFewerThanTwoPositions :
    ∀ present ∈ ([0, 1, 2, 4, 8, 16, 32] : List (BitVec 6)),
      ∀ x y : Fin 6, present.getLsbD x = true → present.getLsbD y = true → x = y := by decide +kernel
theorem witness_ExecOnlyAppendsOneEntry : ∃ s', exec (.add 1 2) State.reset = .next s' := ⟨_, rfl⟩
theorem witness_EveryEntryIsLegal : ∃ s', execRequest ⟨0xF, 1, 2⟩ State.reset = .next s' := ⟨_, rfl⟩
theorem witness_AllMultiplyStrategiesAgree : Tables.rom.Valid := rom_valid
theorem witness_AllInverseMethodsAgree : Tables.rom.Valid ∧ (1 : Byte) ≠ 0 := ⟨rom_valid, by decide⟩
theorem witness_ResponseDependsOnTheRequestAlone : (busy []).tables.Valid := rom_valid
theorem witness_FieldLawsHold : gfmul 0 0x53 = 0 := by decide +kernel
theorem witness_GeneratorPowersAreTheNonzeroElements : (0xFF : Byte) ≠ 0 := by decide
theorem witness_OrderOfTwoIsFiftyOne : (1 : Fin 51).val ≠ 0 ∧ (50 : Fin 51).val ≠ 0 := by decide
theorem witness_PowHasItsClosedForm : Tables.rom.Valid ∧ (2 : Byte) ≠ 0 := ⟨rom_valid, by decide⟩
theorem witness_TableLawsHold : Tables.rom.Valid ∧ (0xFF : Byte) ≠ 0 := ⟨rom_valid, by decide⟩
theorem witness_BuildFillsTheTables :
    Tables.rom.wf = true ∧ (Tables.unbuilt 0).wf = true := ⟨rfl, unbuilt_wf 0⟩
theorem witness_TablesAreReadOnlyOnceInitialised :
    ∃ s', (busy [offer true]).initDone = true ∧ (busy [offer true]).nextPins.rst = false ∧
      step (busy [offer true]) = .next s' := ⟨_, rfl, rfl, rfl⟩
/-- The codeword S1 (spec/95 section 1). -/
theorem encode_s1 : exec (.enc 10 20) State.reset =
    .next (State.reset.push ⟨.ok, 0x6C722836140A, 0x7, 0⟩) :=
  congrArg (fun d => Host.Outcome.next (State.reset.push ⟨.ok, d, 0x7, 0⟩))
    (by decide +kernel : encodePair State.reset.mul 10 20 = 0x6C722836140A)
theorem witness_EncodingIsSystematic :
    State.reset.tables.Valid ∧
      exec (.enc 10 20) State.reset = .next (State.reset.push ⟨.ok, 0x6C722836140A, 0x7, 0⟩) :=
  ⟨rom_valid, encode_s1⟩
theorem witness_DecodingRecoversTheData :
    State.reset.tables.Valid ∧ (4 : Fin 6) ≠ 5 ∧ (0b110000#6).getLsbD 4 = true ∧
      (0b110000#6).getLsbD 5 = true ∧
      exec (.enc 10 20) State.reset = .next (State.reset.push ⟨.ok, 0x6C722836140A, 0x7, 0⟩) :=
  ⟨rom_valid, by decide, by decide, by decide, encode_s1⟩
theorem witness_ResetEdgeClearsTheBlock : (busy [resetPins]).nextPins.rst = true := rfl
theorem witness_StateRightAfterReset : Params.program4.tableImpl = .rom := rfl
/-- INIT_CYCLES = 2: the last edge before init_done rises (2) and the edge at which it does (3). -/
theorem witness_InitDoneRisesAfterInitCycles :
    (starting (List.replicate 3 (quiet true))).Inv ∧
      (starting (List.replicate 3 (quiet true))).initDone = false ∧
      (starting (List.replicate 3 (quiet true))).initCount = 0 ∧
      (starting (List.replicate 3 (quiet true))).comingPins 2 (fun p => p.rst = false) ∧
      (starting (List.replicate 3 (quiet true))).comingPins 3 (fun p => p.rst = false) :=
  ⟨starting_inv _, rfl, rfl, ⟨by decide, by decide⟩, ⟨by decide, by decide⟩⟩
theorem witness_InitialisedBlockIsReady :
    (starting (List.replicate 3 (offer true))).Inv ∧
      (starting (List.replicate 3 (offer true))).initDone = false ∧
      (starting (List.replicate 3 (offer true))).initCount = 0 ∧
      (starting (List.replicate 3 (offer true))).comingPins
        ((starting (List.replicate 3 (offer true))).params.initCycles + 1) (fun p => p.rst = false) :=
  ⟨starting_inv _, rfl, rfl, ⟨by decide, by decide⟩⟩
/-- No entry; a head that has just ripened (LAT = 1, age 0); and one that has not (LAT = 3). -/
theorem witness_OutputsComeFromTheHead :
    (starting []).q = [] ∧ (busy []).q = ⟨.ok, 0x11, 0x1, 0⟩ :: [] ∧ (busy []).rspValid = true ∧
      (slow []).q = ⟨.ok, 0x11, 0x1, 0⟩ :: [] ∧ (slow []).rspValid = false := by decide
theorem witness_RequestOfferedWhileNotReadyHasNoEffect :
    (full [offer true]).pins = offer true :: [] ∧ (full [offer true]).reqReady = false ∧
      (starting [offer true]).reqReady = false := by decide
theorem witness_ResponseIsHeldUntilTaken :
    (busy [quiet false]).rspValid = true ∧ (busy [quiet false]).nextPins.rst = false ∧
      (busy [quiet false]).nextPins.rspReady = false := by decide
/-- Each branch: taken; ripe and not taken; asked for and not ripe; and an edge that accepts nothing,
one that accepts a request. -/
theorem witness_ResponseTransferRemovesTheHead :
    ((busy [quiet true]).q = ⟨.ok, 0x11, 0x1, 0⟩ :: [] ∧ (busy [quiet true]).nextPins.rst = false ∧
      Entry.ripe (busy []).params ⟨.ok, 0x11, 0x1, 0⟩ = true ∧ (busy [quiet true]).nextPins.rspReady = true) ∧
    (busy [quiet false]).nextPins.rspReady = false ∧
    Entry.ripe (slow []).params ⟨.ok, 0x11, 0x1, 0⟩ = false ∧
    (busy [quiet true]).accepts (busy [quiet true]).nextPins = false ∧
    (busy [offer true]).accepts (busy [offer true]).nextPins = true := by decide
theorem witness_RequestAndResponseTransferAtOneEdge :
    (busy [offer true]).Inv ∧ (busy [offer true]).initDone = true ∧
      (busy [offer true]).q = ⟨.ok, 0x11, 0x1, 0⟩ :: [] ∧
      Entry.ripe (busy [offer true]).params ⟨.ok, 0x11, 0x1, 0⟩ = true ∧
      (busy [offer true]).q.length < (busy [offer true]).params.maxOutstanding ∧
      (busy [offer true]).nextPins.rst = false ∧ (busy [offer true]).nextPins.reqValid = true ∧
      (busy [offer true]).nextPins.rspReady = true :=
  ⟨busy_inv _, by decide⟩
/-- LAT = 3 and one edge more, the last cycle in which the response is not on offer; and two edges more,
the first in which it is. -/
theorem witness_ResponseIsOfferedAfterItsLatency :
    let s := { slow [offer false, quiet false, quiet false] with q := [] }
    s.params.wf = true ∧ s.initDone = true ∧ s.q = [] ∧
      s.pins = offer false :: [quiet false, quiet false] ∧
      s.params.latOf 0x0 - 1 = 2 ∧
      (∀ p ∈ [quiet false, quiet false], p.rst = false ∧ p.reqValid = false ∧ p.rspReady = false) := by
  decide
theorem witness_FullQueueStallsUntilTheHostTakes :
    (full [offer false, offer false]).q.length = (full []).params.maxOutstanding ∧
      (full [offer false, offer false]).comingPins 2 (fun p => p.rst = false ∧ p.rspReady = false) :=
  ⟨rfl, by decide, by decide⟩
theorem witness_IdleBlockKeepsItsState :
    ({ busy [quiet true] with q := [] }).initDone = true ∧ ({ busy [quiet true] with q := [] }).q = [] ∧
      ({ busy [quiet true] with q := [] }).nextPins.rst = false ∧
      ({ busy [quiet true] with q := [] }).nextPins.reqValid = false := by decide
theorem witness_InvariantHoldsAtReset : Params.program4.wf = true := by decide
theorem witness_StepKeepsTheInvariant :
    ∃ s', (busy [offer true]).Inv ∧ step (busy [offer true]) = .next s' := ⟨_, busy_inv _, rfl⟩
theorem witness_StepKeepsResponsesInOrder :
    ∃ s', (busy [offer true]).Inv ∧ (busy [offer true]).InOrder ∧ step (busy [offer true]) = .next s' :=
  ⟨_, busy_inv _, busy_inOrder _, rfl⟩
theorem witness_EveryWaitingResponseIsDelivered :
    (∀ op, (slow []).params.latOf op ≤ 3) ∧
      3 + (slow (List.replicate 4 (offer true))).q.length ≤ 4 ∧
      (slow (List.replicate 4 (offer true))).comingPins 4 (fun p => p.rst = false ∧ p.rspReady = true) :=
  ⟨by decide, by decide, by decide, by decide⟩
/-- Ill-formed lines; the largest values that fit, and the next ones, on each side of each clause's
condition. -/
theorem witness_AssemblerPlacesTheOperands :
    (AsmLine.dec 0 0 0 0 0 0 [6]).wf = false ∧
      assemble (.add 255 255) = .ok [.word 0x00000000000FF_000000FF] ∧
      assemble (.add 256 0) = .error .operandOutOfRange ∧
      assemble (.mulp4 0xFFFFFFFF 0) = .ok [.word 0x40000FFFFFFFF_00000000] ∧
      assemble (.word 15 0xFFFFFFFFFFFF 0) = .ok [.word 0xFFFFFFFFFFFFF_00000000] ∧
      assemble (.dec 255 0 0 0 0 0 [0, 5]) = .ok [.word 0x80000000000FF_00000021] ∧
      ¬ (255 < 256 ∧ 256 < 256) := by decide +kernel
theorem witness_PseudoInstructionsAreExact : (0x83 : Byte) ≠ 0 ∧ (0 : Byte) = 0 := by decide

end Sys2Proof.Machine.Tests
end

/-! The powers of the generator and of 0x02 (spec/00_scope.md R3, R4): the field product's unit and
associativity, the laws of exponents they give, and the order of both elements. -/

namespace Sys2Proof.Machine

/-! ### The field product is associative, with unit 1 (spec/40_field_arithmetic.md R91) -/

theorem gfmul_one_left (a : Byte) : gfmul 1 a = a := by
  induction a using byte_xor_induction with
  | zero => exact gfmul_zero_right 1
  | one i => revert i; decide +kernel
  | xor a b ha hb => rw [gfmul_xor_right, ha, hb]

theorem gfmul_one_right (a : Byte) : gfmul a 1 = a := by
  induction a using byte_xor_induction with
  | zero => exact gfmul_zero_left 1
  | one i => revert i; decide +kernel
  | xor a b ha hb => rw [gfmul_xor_left, ha, hb]

/-- Associativity on the powers of x, which generate the bytes under XOR. -/
theorem gfmul_assoc_basis : ∀ i j k : Fin 8,
    gfmul (gfmul (basis i) (basis j)) (basis k) = gfmul (basis i) (gfmul (basis j) (basis k)) := by
  decide +kernel

theorem gfmul_assoc (a b c : Byte) : gfmul (gfmul a b) c = gfmul a (gfmul b c) := by
  induction a using byte_xor_induction with
  | zero => simp only [gfmul_zero_left]
  | xor a a' ha ha' => simp only [gfmul_xor_left, ha, ha']
  | one i =>
    induction b using byte_xor_induction with
    | zero => simp only [gfmul_zero_left, gfmul_zero_right]
    | xor b b' hb hb' => simp only [gfmul_xor_left, gfmul_xor_right, hb, hb']
    | one j =>
      induction c using byte_xor_induction with
      | zero => simp only [gfmul_zero_right]
      | xor c c' hc hc' => simp only [gfmul_xor_right, hc, hc']
      | one k => exact gfmul_assoc_basis i j k

/-! ### Powers (R84) -/

@[simp] theorem pow_zero_exponent (a : Byte) : pow a 0 = 1 := rfl

theorem pow_succ_exponent (a : Byte) (n : Nat) : pow a (n + 1) = gfmul (pow a n) a := rfl

theorem pow_add_exponent (a : Byte) (m n : Nat) : pow a (m + n) = gfmul (pow a m) (pow a n) := by
  induction n with
  | zero => exact (gfmul_one_right _).symm
  | succ n ih => rw [← Nat.add_assoc, pow_succ_exponent, ih, gfmul_assoc, ← pow_succ_exponent]

theorem pow_mul_exponent (a : Byte) (m n : Nat) : pow a (m * n) = pow (pow a m) n := by
  induction n with
  | zero => rfl
  | succ n ih => rw [Nat.mul_succ, pow_add_exponent, ih, ← pow_succ_exponent]

theorem pow_one_base (n : Nat) : pow 1 n = 1 := by
  induction n with
  | zero => rfl
  | succ n ih => rw [pow_succ_exponent, ih, gfmul_one_right]

/-! ### The powers of the generator (spec/00_scope.md R4) -/

theorem pow_generator_255 : pow generator 255 = 1 := by
  rw [pow_succ_exponent, ← expConst_eq_pow 254 (by decide)]
  decide +kernel

theorem pow_generator_mod (n : Nat) : pow generator (n % 255) = pow generator n := by
  conv_rhs => rw [← Nat.div_add_mod n 255, pow_add_exponent, pow_mul_exponent, pow_generator_255,
    pow_one_base, gfmul_one_left]

/-- 3^n times 3^(254·n) is 1. -/
theorem pow_generator_ne_zero (n : Nat) : pow generator n ≠ 0 := by
  intro h
  have one : gfmul (pow generator n) (pow generator (254 * n)) = 1 := by
    rw [← pow_add_exponent, show n + 254 * n = 255 * n by omega, pow_mul_exponent, pow_generator_255,
      pow_one_base]
  rw [h, gfmul_zero_left] at one
  exact absurd one (by decide)

/-- The listing R48 gives the exponent. -/
theorem exists_pow_generator_eq (a : Byte) (ha : a ≠ 0) : ∃ i : Fin 255, pow generator i.val = a :=
  have ⟨hlt, hpow⟩ := rom_valid.log a ha
  ⟨⟨_, hlt⟩, hpow⟩

theorem card_byte : Fintype.card Byte = 256 := FinEnum.card_eq_fintypeCard.symm

/-- The powers below 255 cover the 255 nonzero bytes, so no two of them are equal. -/
theorem pow_generator_injective : Function.Injective fun i : Fin 255 => pow generator i.val := by
  have nonzero : (Finset.univ.erase (0 : Byte)).card = 255 := by
    rw [Finset.card_erase_of_mem (Finset.mem_univ 0), Finset.card_univ, card_byte]
  have inj := Finset.injOn_of_surjOn_of_card_le (s := (Finset.univ : Finset (Fin 255)))
    (t := Finset.univ.erase 0) (fun i => pow generator i.val)
    (fun i _ => by simpa using pow_generator_ne_zero i)
    (fun a ha => by simpa using exists_pow_generator_eq a (by simpa using ha))
    (by rw [nonzero, Finset.card_univ, Fintype.card_fin])
  simpa using inj

theorem pow_generator_eq_one_iff (n : Nat) : pow generator n = 1 ↔ 255 ∣ n := by
  constructor
  · intro h
    rw [← pow_generator_mod] at h
    have key := @pow_generator_injective ⟨n % 255, Nat.mod_lt _ (by decide)⟩ 0 h
    exact Nat.dvd_of_mod_eq_zero (congrArg Fin.val key)
  · rintro ⟨k, rfl⟩
    rw [pow_mul_exponent, pow_generator_255, pow_one_base]

/-- LOG[0x02] = 25 (R48). -/
theorem pow_generator_25 : pow generator 25 = 2 := by decide +kernel

theorem pow_two_eq_one_iff (n : Nat) : pow 2 n = 1 ↔ 51 ∣ n := by
  rw [← pow_generator_25, ← pow_mul_exponent, pow_generator_eq_one_iff]
  omega

/-! ### The statements -/

/-- Settles O30: the listing of LOG finds an exponent for each nonzero byte, and counting makes it unique. -/
theorem generatorPowersAreTheNonzeroElements : Obligations.GeneratorPowersAreTheNonzeroElements := by
  refine ⟨fun a ha => ?_, pow_generator_ne_zero, pow_generator_255⟩
  obtain ⟨i, hi⟩ := exists_pow_generator_eq a ha
  exact ⟨i, hi, fun j hj => pow_generator_injective (hj.trans hi.symm)⟩

/-- Settles O31: 0x02 is 3^25, and 255 divides 25·n exactly when 51 divides n. -/
theorem orderOfTwoIsFiftyOne : Obligations.OrderOfTwoIsFiftyOne := by
  refine ⟨(pow_two_eq_one_iff 51).mpr (dvd_refl 51), fun k hk h => ?_⟩
  have := Nat.le_of_dvd (Nat.pos_of_ne_zero hk) ((pow_two_eq_one_iff k).mp h)
  omega

end Sys2Proof.Machine

/-! The multiply and the inverse by every method on valid tables (spec/40_field_arithmetic.md R86 to R89,
spec/42_inverse.md R110, R111), and with them the answer to every request (spec/10_state.md R26). -/

namespace Sys2Proof.Machine

/-! ### The multiplies (R89) -/

theorem gfmul_comm_basis : ∀ i j : Fin 8, gfmul (basis i) (basis j) = gfmul (basis j) (basis i) := by
  decide +kernel

theorem gfmul_comm (a b : Byte) : gfmul a b = gfmul b a := by
  induction a using byte_xor_induction with
  | zero => rw [gfmul_zero_left, gfmul_zero_right]
  | xor a a' ha ha' => rw [gfmul_xor_left, gfmul_xor_right, ha, ha']
  | one i =>
    induction b using byte_xor_induction with
    | zero => rw [gfmul_zero_left, gfmul_zero_right]
    | xor b b' hb hb' => rw [gfmul_xor_left, gfmul_xor_right, hb, hb']
    | one j => exact gfmul_comm_basis i j

theorem Tables.Valid.readExp_expIndex {t : Tables} (ht : t.Valid) (n : Nat) :
    t.readExp (expIndex n) = pow generator n :=
  (ht.exp (expIndex n)).trans (pow_generator_mod n)

/-- 3^(LOG a + LOG b) = a·b. -/
theorem mulLog_eq_gfmul {t : Tables} (ht : t.Valid) (a b : Byte) : mulLog t a b = gfmul a b := by
  unfold mulLog
  split
  · next hzero =>
    rcases hzero with rfl | rfl
    · exact (gfmul_zero_left b).symm
    · exact (gfmul_zero_right a).symm
  · next hne =>
    obtain ⟨ha, hb⟩ := not_or.mp hne
    rw [ht.readExp_expIndex, pow_add_exponent, (ht.log a ha).2, (ht.log b hb).2]

theorem mulBy_eq_gfmul {t : Tables} (ht : t.Valid) (impl : MulImpl) : mulBy impl t = gfmul := by
  funext a b
  cases impl with
  | bitwise => rfl
  | log => exact mulLog_eq_gfmul ht a b
  | table => exact ht.multab a b

theorem State.mul_eq_gfmul {s : State} (hs : s.tables.Valid) : s.mul = gfmul :=
  mulBy_eq_gfmul hs s.params.mulImpl

/-! ### The inverses (R111) -/

theorem gfmul_inverse_unique {a b c : Byte} (hb : gfmul a b = 1) (hc : gfmul a c = 1) : b = c :=
  calc b = gfmul b (gfmul a c) := by rw [hc, gfmul_one_right]
    _ = gfmul (gfmul a b) c := by rw [← gfmul_assoc, gfmul_comm b a]
    _ = c := by rw [hb, gfmul_one_left]

/-- 3^(LOG a) · 3^(255 − LOG a) = 3^255 = 1; only EXP, and LOG at a, matter. -/
theorem gfmul_invLog_of_exp_log {t : Tables} (hexp : ∀ i : Fin 255, t.readExp i = pow generator i.val)
    {a : Byte} (ha : a ≠ 0)
    (hlog : (t.readLog a).toNat < 255 ∧ pow generator (t.readLog a).toNat = a) :
    gfmul a (invLog t a) = 1 := by
  obtain ⟨hlt, hpow⟩ := hlog
  have hinv : invLog t a = pow generator (255 - (t.readLog a).toNat) := by
    rw [invLog, if_neg ha, hexp]
    exact pow_generator_mod _
  calc gfmul a (invLog t a)
      = gfmul (pow generator (t.readLog a).toNat) (pow generator (255 - (t.readLog a).toNat)) := by
        rw [hinv, hpow]
    _ = 1 := by rw [← pow_add_exponent, Nat.add_sub_cancel' hlt.le, pow_generator_255]

theorem gfmul_invLog {t : Tables} (ht : t.Valid) {a : Byte} (ha : a ≠ 0) : gfmul a (invLog t a) = 1 :=
  gfmul_invLog_of_exp_log ht.exp ha (ht.log a ha)

theorem pow_255_of_ne_zero {a : Byte} (ha : a ≠ 0) : pow a 255 = 1 := by
  obtain ⟨i, rfl⟩ := exists_pow_generator_eq a ha
  rw [← pow_mul_exponent, Nat.mul_comm, pow_mul_exponent, pow_generator_255, pow_one_base]

theorem gfmul_pow_254 {a : Byte} (ha : a ≠ 0) : gfmul a (pow a 254) = 1 := by
  rw [gfmul_comm, ← pow_succ_exponent, pow_255_of_ne_zero ha]

/-- A multiplicative inverse is R110's. -/
theorem eq_gfinv {a b : Byte} (ha : a ≠ 0) (h : gfmul a b = 1) : b = gfinv a :=
  gfmul_inverse_unique h (gfmul_invLog rom_valid ha)

theorem invBy_eq_gfinv {t : Tables} (ht : t.Valid) (impl : InvImpl) : invBy impl gfmul t = gfinv := by
  funext a
  by_cases ha : a = 0
  · subst ha
    cases impl with
    | log => rfl
    | table => exact ht.invZero
    | fermat => rfl
  · cases impl with
    | log => exact eq_gfinv ha (gfmul_invLog ht ha)
    | table => exact eq_gfinv ha (ht.inv a ha)
    | fermat => exact (if_neg ha).trans (eq_gfinv ha (gfmul_pow_254 ha))

theorem State.inv_eq_gfinv {s : State} (hs : s.tables.Valid) : s.inv = gfinv := by
  funext a
  rw [State.inv, State.mul_eq_gfmul hs, invBy_eq_gfinv hs]

/-! ### The answer to a request (R26, R62) -/

/-- The entry of age 0 that holds response `x` to a request with code `op`. -/
def entryOf (op : OpCode) (x : Response) : Entry := ⟨x.status, x.data, op, 0⟩

@[simp] theorem entryOf_response (op : OpCode) (x : Response) : (entryOf op x).response = x := rfl
@[simp] theorem entryOf_op (op : OpCode) (x : Response) : (entryOf op x).op = op := rfl
@[simp] theorem entryOf_age (op : OpCode) (x : Response) : (entryOf op x).age = 0 := rfl

theorem exec_eq_answerInstr {s : State} (hs : s.tables.Valid) (i : Instr) :
    exec i s = .next (s.push (entryOf i.op (answerInstr i))) := by
  cases i with
  | add a b => rfl
  | mulb a b => rfl
  | pow base exponent => rfl
  | mull a b => simp only [exec, execMull, mulLog_eq_gfmul hs]; rfl
  | mult a b => simp only [exec, execMult, mulTable, hs.multab]; rfl
  | mulp4 a b => simp only [exec, execMulp4, State.mul_eq_gfmul hs]; rfl
  | inv a => simp only [exec, execInv, State.inv_eq_gfinv hs]; rfl
  | enc y0 y1 => simp only [exec, execEnc, State.mul_eq_gfmul hs]; rfl
  | dec c0 c1 c2 c3 c4 c5 present =>
    simp only [exec, execDec, answerInstr, State.mul_eq_gfmul hs, State.inv_eq_gfinv hs]
    cases decodePair gfmul gfinv #v[c0, c1, c2, c3, c4, c5] present with
    | none => rfl
    | some y => rfl

/-- A request whose word decodes runs its instruction (R62). -/
theorem execRequest_of_decode {r : Request} {i : Instr} (h : decode r.word = .ok i) (s : State) :
    execRequest r s = exec i s := by
  simp only [execRequest, h]

theorem execRequest_eq_answer {s : State} (hs : s.tables.Valid) (r : Request) :
    execRequest r s = .next (s.push (entryOf r.op (answer r))) := by
  rcases decode_op r.word with ⟨i, hi, hop⟩ | herr
  · rw [execRequest_of_decode hi, exec_eq_answerInstr hs, hop, opField_word]
    simp only [answer, hi]
  · simp only [execRequest, answer, herr, opField_word]
    rfl

/-- Settles O26: on valid tables every strategy computes the field product and R110's inverse. -/
theorem responseDependsOnTheRequestAlone : Obligations.ResponseDependsOnTheRequestAlone :=
  fun r _ hs => execRequest_eq_answer hs r

/-- Settles O21: the frame is that of one `push`. -/
theorem execOnlyAppendsOneEntry : Obligations.ExecOnlyAppendsOneEntry := by
  intro i s s' h
  obtain ⟨e, hop, hage, rfl⟩ := exec_inv h
  exact ⟨⟨e, rfl, hop, hage⟩, rfl, rfl, rfl, rfl, rfl, rfl, rfl⟩

end Sys2Proof.Machine

/-! What an entry can hold, whatever the tables do, and what the construction leaves in the tables
(spec/60_exceptions.md R140 to R146, spec/20_memory.md R45). -/

namespace Sys2Proof.Machine

/-! ### What an entry can hold (R65, R140, R146) -/

/-- A result is legal where it fits the DATA bits that its opcode defines. -/
theorem legal_of_ok {op : OpCode} {d : Data} (hop : reservedOp op = false)
    (hd : d.toNat < 2 ^ dataWidth op) : (⟨.ok, d, op, 0⟩ : Entry).Legal where
  illegal := by simp [hop]
  insufficient h := by cases h
  noPartial h := absurd rfl h
  rest := hd

theorem legal_insufficientSymbols : (⟨.insufficientSymbols, 0, 0x8, 0⟩ : Entry).Legal where
  illegal := by decide
  insufficient _ := rfl
  noPartial _ := rfl
  rest := by decide

theorem legal_illegalOp {op : OpCode} (hop : reservedOp op = true) :
    (⟨.illegalOp, 0, op, 0⟩ : Entry).Legal where
  illegal := by simp [hop]
  insufficient h := by cases h
  noPartial _ := rfl
  rest := Nat.two_pow_pos _

/-- DATA that is a narrower result, zero-extended. -/
theorem setWidth_data_lt {w n : Nat} (r : BitVec w) (h : w ≤ n) : (r.setWidth 48).toNat < 2 ^ n := by
  have := Nat.pow_le_pow_right (by decide : 0 < 2) h
  simp only [BitVec.toNat_setWidth]
  exact lt_of_le_of_lt (Nat.mod_le _ _) (lt_of_lt_of_le r.isLt this)

theorem Entry.Legal.older {e : Entry} (h : e.Legal) : e.older.Legal :=
  ⟨h.illegal, h.insufficient, h.noPartial, h.rest⟩

/-- Whatever the tables hold, an instruction's entry is legal. -/
theorem exec_legal (i : Instr) (s : State) :
    ∃ e : Entry, exec i s = .next (s.push e) ∧ e.op = i.op ∧ e.Legal := by
  cases i with
  | dec c0 c1 c2 c3 c4 c5 present =>
    simp only [exec, execDec]
    split
    · exact ⟨_, rfl, rfl, legal_of_ok rfl (setWidth_data_lt _ le_rfl)⟩
    · exact ⟨_, rfl, rfl, legal_insufficientSymbols⟩
  | enc y0 y1 => exact ⟨_, rfl, rfl, legal_of_ok rfl (BitVec.isLt _)⟩
  | _ => exact ⟨_, rfl, rfl, legal_of_ok rfl (setWidth_data_lt _ le_rfl)⟩

/-- A word that does not decode has a reserved code (R68). -/
theorem reservedOp_of_decode_error {w : ReqWord} {err : DecodeError} (h : decode w = .error err) :
    reservedOp (opField w) = true := by
  by_contra hres
  have hlt : (opField w).toNat < 9 := by simpa [reservedOp] using hres
  interval_cases hop : (opField w).toNat <;> simp [decode, hop] at h

theorem execRequest_legal (r : Request) (s : State) :
    ∃ e : Entry, execRequest r s = .next (s.push e) ∧ e.op = r.op ∧ e.Legal := by
  rcases decode_op r.word with ⟨i, hi, hop⟩ | herr
  · obtain ⟨e, he, heop, hlegal⟩ := exec_legal i s
    exact ⟨e, (execRequest_of_decode hi s).trans he, by rw [heop, hop, opField_word], hlegal⟩
  · have hres := reservedOp_of_decode_error herr
    rw [opField_word] at herr hres
    exact ⟨_, by simp only [execRequest, herr]; rfl, rfl, legal_illegalOp hres⟩

/-! ### The construction (R45) -/

/-- The tables after R45's first loop. -/
def Tables.buildPowers (t : Tables) : Tables := (List.finRange 255).foldl buildExpLog t

/-- The tables after R45's second loop. -/
def Tables.buildProducts (t : Tables) : Tables :=
  allBytes.foldl (fun t a => allBytes.foldl (fun t b => buildMul t a b) t) t

theorem build_eq (t : Tables) : t.build = allBytes.foldl buildInv t.buildPowers.buildProducts := rfl

theorem buildPowers_readExp (t : Tables) (i : Fin 255) : t.buildPowers.readExp i = pow generator i := by
  rw [Tables.buildPowers, buildExpLog_exp, if_pos (List.mem_finRange i)]

/-- Every nonzero byte is a power, so the first loop writes its logarithm. -/
theorem buildPowers_readLog (t : Tables) {v : Byte} (hv : v ≠ 0) :
    (t.buildPowers.readLog v).toNat < 255 ∧ pow generator (t.buildPowers.readLog v).toNat = v := by
  rcases buildExpLog_log (List.finRange 255) t v with ⟨i, _, hpow, hlog⟩ | ⟨hnone, _⟩
  · have hi : (t.buildPowers.readLog v).toNat = i := by
      rw [Tables.buildPowers, hlog, BitVec.toNat_ofNat]
      exact Nat.mod_eq_of_lt (by omega)
    rw [hi]
    exact ⟨i.isLt, hpow⟩
  · obtain ⟨i, hi⟩ := exists_pow_generator_eq v hv
    exact absurd hi (hnone i (List.mem_finRange i))

theorem buildPowers_wf {t : Tables} (h : t.wf = true) : t.buildPowers.wf = true :=
  foldl_keeps_wf _ buildExpLog_wf (List.finRange 255) t h

theorem buildMul_all_wf (l m : List Byte) {t : Tables} (h : t.wf = true) :
    (l.foldl (fun t a => m.foldl (fun t b => buildMul t a b) t) t).wf = true :=
  foldl_keeps_wf _ (fun t a => foldl_keeps_wf _ (fun t b => buildMul_wf t a b) m t) l t h

theorem build_wf {t : Tables} (h : t.wf = true) : t.build.wf = true := by
  rw [build_eq]
  exact foldl_keeps_wf _ buildInv_wf _ _ (buildMul_all_wf _ _ (buildPowers_wf h))

/-- The procedure leaves what the rules R40 to R43 define, from any content. -/
theorem build_valid (t : Tables) : t.build.Valid := by
  obtain ⟨hexp, hlog, -, readMul⟩ := buildMul_all allBytes allBytes t.buildPowers
  obtain ⟨hexp', hlog', hmul, readInv⟩ := buildInv_all allBytes t.buildPowers.buildProducts
  have exp (i : Fin 255) : t.buildPowers.buildProducts.readExp i = pow generator i :=
    (congrArg (Memory.read .exp · i) hexp).trans (buildPowers_readExp t i)
  have log (v : Byte) (hv : v ≠ 0) : (t.buildPowers.buildProducts.readLog v).toNat < 255 ∧
      pow generator (t.buildPowers.buildProducts.readLog v).toNat = v := by
    rw [show t.buildPowers.buildProducts.readLog v = t.buildPowers.readLog v from
      congrArg (Memory.read .log · v.toFin) hlog]
    exact buildPowers_readLog t hv
  have inv (a : Byte) : t.build.readInv a = invLog t.buildPowers.buildProducts a :=
    (readInv a).trans (if_pos (mem_allBytes a))
  exact {
    exp i := (congrArg (Memory.read .exp · i) hexp').trans (exp i)
    log v hv := by
      rw [show t.build.readLog v = t.buildPowers.buildProducts.readLog v from
        congrArg (Memory.read .log · v.toFin) hlog']
      exact log v hv
    multab a b := calc
      t.build.readMul a b = t.buildPowers.buildProducts.readMul a b :=
        congrArg (Memory.read .multab · (a ++ b).toFin) hmul
      _ = gfmul a b := (readMul a b).trans (if_pos ⟨mem_allBytes a, mem_allBytes b⟩)
    invZero := (inv 0).trans (if_pos rfl)
    inv a ha := by rw [inv a, gfmul_invLog_of_exp_log exp ha (log a ha)] }

end Sys2Proof.Machine

/-! The invariant of the machine and the order of the responses, through the three cases of an edge
(spec/10_state.md R24 to R34, spec/70_reset_and_hazards.md R160 to R162). -/

namespace Sys2Proof.Machine

/-! ### The initialiser -/

/-- With the invariant, init_done rises exactly where the count stands at INIT_CYCLES. -/
theorem State.Inv.initRises_iff {s : State} (h : s.Inv) (hd : s.initDone = false) :
    s.initRises = true ↔ s.initCount = s.params.initCycles := by
  have hle : s.initCount ≤ s.params.initCycles := by simpa [hd] using h.count
  simp only [State.initRises, hd, Bool.not_false, Bool.true_and, decide_eq_true_eq]
  omega

theorem nextTables_unbuilt {s : State} (hd : s.initDone = false) (hr : s.initRises = false)
    (hb : s.params.tableImpl = .build) : s.nextTables = .unbuilt s.freeCount := by
  simp [State.nextTables, hd, hr, hb]

theorem nextTables_built {s : State} (hd : s.initDone = false) (hr : s.initRises = true)
    (hb : s.params.tableImpl = .build) : s.nextTables = s.tables.build := by
  rw [nextTables_rises hd hr, hb, finish_build]

/-- What the tables can be after an edge with rst = 0. -/
theorem nextTables_cases (s : State) :
    (s.initDone = true ∨ s.params.tableImpl = .rom) ∧ s.nextTables = s.tables ∨
    s.initRises = true ∧ s.nextTables = s.tables.build ∨
    (s.initDone = false ∧ s.initRises = false ∧ s.params.tableImpl = .build) ∧
      s.nextTables = .unbuilt s.freeCount := by
  cases hd : s.initDone with
  | true => exact .inl ⟨.inl rfl, nextTables_done hd⟩
  | false =>
    cases hb : s.params.tableImpl with
    | rom => exact .inl ⟨.inr rfl, nextTables_rom hb⟩
    | build =>
      cases hr : s.initRises with
      | true => exact .inr (.inl ⟨rfl, nextTables_built hd hr hb⟩)
      | false => exact .inr (.inr ⟨⟨rfl, rfl, rfl⟩, nextTables_unbuilt hd hr hb⟩)

/-! ### Each update keeps the invariant -/

theorem State.Inv.noteAccepted {s : State} (h : s.Inv) (r : Request) : (s.noteAccepted r).Inv :=
  ⟨h.params, h.tablesWf, h.tablesValid, h.count, h.bound, h.gated, h.legal⟩

theorem State.Inv.push {s : State} (h : s.Inv) {e : Entry} (hd : s.initDone = true)
    (hroom : s.q.length < s.params.maxOutstanding) (he : e.Legal) : (s.push e).Inv where
  params := h.params
  tablesWf := h.tablesWf
  tablesValid := h.tablesValid
  count := h.count
  bound := by simpa using hroom
  gated hd' := by simp [hd] at hd'
  legal x hx := by
    rcases List.mem_append.mp hx with hx | hx
    · exact h.legal x hx
    · rwa [List.mem_singleton.mp hx]

theorem State.Inv.resetEdge {s : State} (h : s.Inv) : s.resetEdge.Inv where
  params := h.params
  tablesWf := by
    cases hb : s.params.tableImpl with
    | rom => rw [resetEdge_tables_rom s hb]; exact h.tablesWf
    | build => rw [resetEdge_tables_build s hb]; exact unbuilt_wf _
  tablesValid := by
    rintro (hd | hb)
    · cases hd
    · rw [resetEdge_tables_rom s hb]; exact h.tablesValid (.inr hb)
  count := Nat.zero_le _
  bound := Nat.zero_le _
  gated _ := rfl
  legal e he := by cases he

theorem State.Inv.quietEdge {s : State} (h : s.Inv) (p : Pins) : (s.quietEdge p).Inv where
  params := by simpa using h.params
  tablesWf := by
    rw [quietEdge_tables]
    rcases nextTables_cases s with ⟨-, ht⟩ | ⟨-, ht⟩ | ⟨-, ht⟩ <;> rw [ht]
    · exact h.tablesWf
    · exact build_wf h.tablesWf
    · exact unbuilt_wf _
  tablesValid hv := by
    rw [quietEdge_tables]
    rcases nextTables_cases s with ⟨hv', ht⟩ | ⟨-, ht⟩ | ⟨⟨hd, hr, hb⟩, -⟩
    · rw [ht]; exact h.tablesValid hv'
    · rw [ht]; exact build_valid _
    · simp [hd, hr, hb] at hv
  count := by
    have hcount := h.count
    cases hd : s.initDone with
    | true => simpa [hd] using hcount
    | false =>
      have hle : s.initCount ≤ s.params.initCycles := by simpa [hd] using hcount
      have hiff := h.initRises_iff hd
      cases hr : s.initRises with
      | true => simpa [hd, hr] using hiff.mp hr
      | false =>
        have hne : s.initCount ≠ s.params.initCycles := fun he => by simp [hiff.mpr he] at hr
        simpa [hd, hr] using Nat.lt_of_le_of_ne hle hne
  bound := by
    rw [quietEdge_params]
    exact (quietEdge_length_le s p).trans h.bound
  gated hd := by
    rw [quietEdge_initDone, Bool.or_eq_false_iff] at hd
    refine List.length_eq_zero_iff.mp (Nat.le_zero.mp ?_)
    simpa [h.gated hd.1] using quietEdge_length_le s p
  legal e he := by
    obtain ⟨e', he', rfl⟩ := mem_quietEdge he
    exact (h.legal e' he').older

/-- An accepting edge finds, after its other work, the block initialised and Q below MAX_OUTSTANDING. -/
theorem quietEdge_has_room {s : State} {p : Pins} (ha : s.accepts p = true) :
    (s.quietEdge p).initDone = true ∧ (s.quietEdge p).q.length < (s.quietEdge p).params.maxOutstanding := by
  obtain ⟨-, -, hd, hroom⟩ := (accepts_iff s p).mp ha
  rw [quietEdge_initDone, quietEdge_params, hd]
  exact ⟨rfl, (quietEdge_length_le s p).trans_lt hroom⟩

/-- Settles O54: reset, the rest of an edge, and the joining of a legal entry each keep the invariant. -/
theorem stepKeepsTheInvariant : Obligations.StepKeepsTheInvariant := by
  intro s s' h hstep
  rcases edge_cases hstep with ⟨-, rfl⟩ | ⟨-, ha, st, d, hexec, -⟩ | ⟨-, -, rfl⟩
  · exact h.resetEdge
  · obtain ⟨e, he, -, hlegal⟩ := execRequest_legal s.nextPins.request
      ((s.quietEdge s.nextPins).noteAccepted s.nextPins.request)
    obtain rfl := Host.Outcome.next.inj (he.symm.trans hexec)
    obtain ⟨hd, hroom⟩ := quietEdge_has_room ha
    exact ((h.quietEdge _).noteAccepted _).push hd hroom hlegal
  · exact h.quietEdge _

/-- Settles O35: every edge with rst = 0 leaves `nextTables`, which is `tables` once init_done = 1. -/
theorem tablesAreReadOnlyOnceInitialised : Obligations.TablesAreReadOnlyOnceInitialised := by
  intro s s' hdone hr hstep
  have hsame := nextTables_done hdone
  rcases edge_cases hstep with ⟨hrst, -⟩ | ⟨-, -, st, d, -, rfl⟩ | ⟨-, -, rfl⟩
  · simp [hr] at hrst
  · rw [push_tables, noteAccepted_tables, quietEdge_tables, hsame]
  · rw [quietEdge_tables, hsame]

/-! ### Order of the responses (R26) -/

@[simp] theorem pending_push (s : State) (e : Entry) : (s.push e).pending = s.pending ++ [e.response] := by
  simp [State.pending]

@[simp] theorem pending_noteAccepted (s : State) (r : Request) : (s.noteAccepted r).pending = s.pending := rfl

theorem quietEdge_accepted (s : State) (p : Pins) :
    acceptedSinceReset (s.quietEdge p).trace = acceptedSinceReset s.trace := by
  rcases hd : s.delivers p with _ | x
  · rw [(quietEdge_keeps s p hd).2]
  · rw [(quietEdge_delivers s p hd).2, acceptedSinceReset]

theorem State.InOrder.quietEdge {s : State} (h : s.InOrder) (p : Pins) : (s.quietEdge p).InOrder := by
  rw [State.InOrder, quietEdge_responses, quietEdge_accepted]
  exact h

/-- A request's record and its answer join at the same time. -/
theorem State.InOrder.accept {s : State} (h : s.InOrder) (r : Request) :
    ((s.noteAccepted r).push (entryOf r.op (answer r))).InOrder := by
  have h : deliveredSinceReset s.trace ++ s.pending = (acceptedSinceReset s.trace).map answer := h
  simp [State.InOrder, acceptedSinceReset, deliveredSinceReset, ← h]

/-- With valid tables an accepting edge appends the answer to its request. -/
theorem edge_accepts_answer {s : State} {p : Pins} (hs : s.tables.Valid) (ha : s.accepts p = true) :
    edge p s = .next (((s.quietEdge p).noteAccepted p.request).push
      (entryOf p.reqOp (answer p.request))) := by
  obtain ⟨-, -, hd, -⟩ := (accepts_iff s p).mp ha
  rw [edge_accepts ha]
  refine execRequest_eq_answer ?_ p.request
  rwa [noteAccepted_tables, quietEdge_tables, nextTables_done hd]

/-- The invariant's tables are valid at an edge that accepts. -/
theorem State.Inv.valid_of_accepts {s : State} (h : s.Inv) {p : Pins} (ha : s.accepts p = true) :
    s.tables.Valid := by
  obtain ⟨-, -, hd, -⟩ := (accepts_iff s p).mp ha
  exact h.tablesValid (.inl hd)

/-- Settles O55: a reset edge empties both sides, a response that transfers moves from Q to the record, and
an accepted request adds its answer at the end of both sides. -/
theorem stepKeepsResponsesInOrder : Obligations.StepKeepsResponsesInOrder := by
  intro s s' h horder hstep
  rcases edge_cases hstep with ⟨-, rfl⟩ | ⟨-, ha, -⟩ | ⟨-, -, rfl⟩
  · rfl
  · obtain rfl := Host.Outcome.next.inj
      ((edge_accepts_answer (h.valid_of_accepts ha) ha).symm.trans hstep)
    exact (horder.quietEdge _).accept _
  · exact horder.quietEdge _

/-! ### After reset (R34) -/

theorem afterReset_wf (impl : TableImpl) (n : Nat) : (Tables.afterReset impl n).wf = true := by
  cases impl with
  | rom => exact rom_wf
  | build => exact unbuilt_wf n

theorem resetWith_tables_valid {p : Params} (h : p.tableImpl = .rom) :
    (State.resetWith p).tables.Valid := by
  have hrom : (State.resetWith p).tables = .rom := congrArg (Tables.afterReset · 0) h
  rw [hrom]
  exact rom_valid

theorem resetWith_inv {p : Params} (hp : p.wf = true) : (State.resetWith p).Inv where
  params := hp
  tablesWf := afterReset_wf _ _
  tablesValid := by
    rintro (hd | hrom)
    · cases hd
    · exact resetWith_tables_valid hrom
  count := Nat.zero_le _
  bound := Nat.zero_le _
  gated _ := rfl
  legal e he := by cases he

theorem resetWith_inOrder (p : Params) : (State.resetWith p).InOrder := rfl

/-- Settles O53. -/
theorem invariantHoldsAtReset : Obligations.InvariantHoldsAtReset :=
  ⟨fun p hp => ⟨resetWith_inv hp, resetWith_inOrder p⟩, resetWith_inv (by decide), resetWith_inOrder _⟩

/-- Settles O41. -/
theorem stateRightAfterReset : Obligations.StateRightAfterReset :=
  fun _ => ⟨rfl, rfl, rfl, rfl, rfl, resetWith_tables_valid⟩

end Sys2Proof.Machine

/-! The outputs and the two channels: what an edge with rst = 0 does to Q and to the record, and runs of
such edges (spec/10_state.md R22 to R30). -/

namespace Sys2Proof.Machine

/-! ### The outputs (R24, R25, R28) -/

theorem ripe_iff (p : Params) (e : Entry) : e.ripe p = true ↔ p.latOf e.op - 1 ≤ e.age := by
  simp [Entry.ripe]

theorem offered_nil {s : State} (h : s.q = []) : s.offered = none := by
  simp [State.offered, h]

theorem offered_cons {s : State} {e : Entry} {es : List Entry} (h : s.q = e :: es) :
    s.offered = if e.ripe s.params then some e.response else none := by
  simp [State.offered, h]

theorem rspValid_cons {s : State} {e : Entry} {es : List Entry} (h : s.q = e :: es) :
    s.rspValid = e.ripe s.params := by
  rw [State.rspValid, offered_cons h]
  split <;> simp [*]

/-- A response on offer is the head of Q. -/
theorem rspValid_iff (s : State) :
    s.rspValid = true ↔ ∃ e es, s.q = e :: es ∧ e.ripe s.params = true := by
  cases hq : s.q with
  | nil => simp [State.rspValid, offered_nil hq]
  | cons e es => simp [rspValid_cons hq]

theorem responseWord_status (r : Response) : (responseWord r).extractLsb' 48 2 = statusCode r.status := by
  unfold responseWord
  ext i hi
  simp only [BitVec.getElem_extractLsb', BitVec.getLsbD_append]
  simp [hi]

theorem responseWord_data (r : Response) : (responseWord r).extractLsb' 0 48 = r.data := by
  unfold responseWord
  ext i hi
  simp only [BitVec.getElem_extractLsb', BitVec.getLsbD_append]
  simp [hi]

theorem outputs_of_ripe {s : State} {e : Entry} {es : List Entry} (hq : s.q = e :: es)
    (hripe : e.ripe s.params = true) : s.rspStatus = statusCode e.status ∧ s.rspData = e.data := by
  have hword : s.rspWord = responseWord e.response := by
    simp [State.rspWord, offered_cons hq, hripe]
  rw [State.rspStatus, State.rspData, hword]
  exact ⟨responseWord_status _, responseWord_data _⟩

/-- Settles O45. -/
theorem outputsComeFromTheHead : Obligations.OutputsComeFromTheHead := by
  refine ⟨fun s hq => by simp [State.rspValid, offered_nil hq], fun s e es hq => ?_⟩
  rw [rspValid_cons hq, ← ripe_iff]
  exact ⟨Iff.rfl, outputs_of_ripe hq⟩

/-- Settles O44: the definition of `State.reqReady`. -/
theorem readyExactlyWhenInitialisedWithRoom : Obligations.ReadyExactlyWhenInitialisedWithRoom := by
  intro s
  simp [State.reqReady]

/-! ### Edges at which a request transfers, and edges at which none does -/

/-- Settles O6: an edge that accepts runs the request, and a request that decodes is its instruction. -/
theorem stepRunsTheDecodedInstruction : Obligations.StepRunsTheDecodedInstruction := by
  intro s i hrst hvalid hdone hroom hdecode
  have ha : s.accepts s.nextPins = true := (accepts_iff _ _).mpr ⟨hrst, hvalid, hdone, hroom⟩
  rw [step, edge_accepts ha, execRequest_of_decode hdecode]

theorem accepts_false_of_not_ready {s : State} (h : s.reqReady = false) (p : Pins) :
    s.accepts p = false := by
  simp [State.accepts, h]

/-- The samples `p` with no request offered. -/
def Pins.withdrawn (p : Pins) : Pins := { p with reqValid := false }

/-- Of the samples, the part of an edge outside the request channel reads rst and rsp_ready alone. -/
theorem quietEdge_withdrawn {s : State} {p : Pins} {ps : List Pins} (hpins : s.pins = p :: ps) :
    ({ s with pins := p.withdrawn :: ps }.quietEdge p.withdrawn) = s.quietEdge p := by
  have hsame : { s with pins := p.withdrawn :: ps }.delivers p.withdrawn = s.delivers p := rfl
  cases hd : s.delivers p with
  | none => simp only [State.quietEdge, State.rspEdge, hsame, hd, hpins]; rfl
  | some x => simp only [State.quietEdge, State.rspEdge, hsame, hd, hpins]; rfl

/-- Settles O46: neither edge accepts, and nothing else of an edge reads the request channel's samples. -/
theorem requestOfferedWhileNotReadyHasNoEffect : Obligations.RequestOfferedWhileNotReadyHasNoEffect := by
  intro s p ps hpins hready
  have hnext : s.nextPins = p := by simp [State.nextPins, hpins]
  show edge s.nextPins s = edge p.withdrawn { s with pins := p.withdrawn :: ps }
  rw [hnext]
  cases hr : p.rst with
  | true =>
    rw [edge_reset hr, edge_reset (p := p.withdrawn) hr]
    simp [State.resetEdge, hpins]
  | false =>
    rw [edge_quiet hr (accepts_false_of_not_ready hready p),
      edge_quiet (p := p.withdrawn) (s := { s with pins := p.withdrawn :: ps }) hr
        (accepts_false_of_not_ready hready _), quietEdge_withdrawn hpins]

theorem decode_of_decodeTableWord {nbits w : Nat} {i : Instr} (h : decodeTableWord nbits w = some i) :
    decode (tableWord nbits w) = .ok i := by
  unfold decodeTableWord at h
  split at h
  · next j hj => rw [hj, Option.some.inj h]
  · cases h

/-! ### Placing a request -/
section
variable (s : State) (r : Request)

@[simp] theorem initialised_params : s.initialised.params = s.params := by
  unfold State.initialised; split <;> rfl

theorem initialised_of_done {s : State} (h : s.initDone = true) : s.initialised = s := if_pos h

@[simp] theorem initialised_initDone : s.initialised.initDone = true := by
  unfold State.initialised
  split
  · assumption
  · rfl

@[simp] theorem withRoom_params : s.withRoom.params = s.params := by
  unfold State.withRoom; split <;> rfl
@[simp] theorem withRoom_tables : s.withRoom.tables = s.tables := by
  unfold State.withRoom; split <;> rfl
@[simp] theorem withRoom_initDone : s.withRoom.initDone = s.initDone := by
  unfold State.withRoom; split <;> rfl

theorem withRoom_has_room {s : State} (h : 1 ≤ s.params.maxOutstanding) :
    s.withRoom.q.length < s.params.maxOutstanding := by
  unfold State.withRoom
  split
  · assumption
  · exact h

@[simp] theorem withRequest_params : (s.withRequest r).params = s.params := by
  simp [State.withRequest]
@[simp] theorem withRequest_initDone : (s.withRequest r).initDone = true := by
  simp [State.withRequest]
theorem withRequest_tables {s : State} (h : s.initDone = true) :
    (s.withRequest r).tables = s.tables := by
  simp [State.withRequest, initialised_of_done h]
@[simp] theorem withRequest_nextPins : (s.withRequest r).nextPins = s.nextPins.offering r := rfl
@[simp] theorem offering_request (p : Pins) : (p.offering r).request = r := rfl

theorem withRequest_has_room {s : State} (h : 1 ≤ s.params.maxOutstanding) :
    (s.withRequest r).q.length < s.params.maxOutstanding := by
  rw [← initialised_params] at h ⊢
  exact withRoom_has_room h

end

/-- Settles O7: the placed request transfers, and runs on the state after the edge's other work. -/
theorem stepRunsAPlacedWord : Obligations.StepRunsAPlacedWord := by
  intro s nbits w i hmax hdecode
  have hword : decode (requestOf (tableWord nbits w)).word = .ok i := by
    rw [requestOf_word]
    exact decode_of_decodeTableWord hdecode
  refine ⟨_, stepRunsTheDecodedInstruction (s.withFetchWord nbits w) i rfl rfl
    (withRequest_initDone s _) ?_ hword, ?_, fun _ hdone => ?_⟩
  · rw [State.withFetchWord, withRequest_params]
    exact withRequest_has_room _ hmax
  · simp [State.withFetchWord]
  · rw [noteAccepted_tables, quietEdge_tables, State.withFetchWord,
      nextTables_done (withRequest_initDone s _), withRequest_tables _ hdone]

/-! ### Edges with rst = 0 (R23, R25, R28) -/

/-- `s'` is what an edge with rst = 0 leaves of `s`: Q and the responses recorded are those of the edge's
quiet part, and the entries `new` of an accepted request have joined the tail of Q. -/
structure State.Follows (s' s : State) (new : List Entry) : Prop where
  params : s'.params = s.params
  pins : s'.pins = s.pins.tail
  q : s'.q = (s.quietEdge s.nextPins).q ++ new
  delivered : deliveredSinceReset s'.trace = deliveredSinceReset (s.quietEdge s.nextPins).trace
  idle : s.accepts s.nextPins = false → new = []
  accepted : s.accepts s.nextPins = true → ∃ e, new = [e] ∧ e.op = s.nextPins.reqOp ∧ e.age = 0

theorem step_follows {s : State} (hr : s.nextPins.rst = false) :
    ∃ s' new, step s = .next s' ∧ s'.Follows s new := by
  cases ha : s.accepts s.nextPins with
  | false =>
    refine ⟨_, [], edge_quiet hr ha, ?_⟩
    exact ⟨by simp, by simp, by simp, rfl, fun _ => rfl, by simp [ha]⟩
  | true =>
    obtain ⟨st, d, hexec⟩ := execRequest_next s.nextPins.request
      ((s.quietEdge s.nextPins).noteAccepted s.nextPins.request)
    refine ⟨_, [⟨st, d, s.nextPins.reqOp, 0⟩], (edge_accepts ha).trans hexec, ?_⟩
    exact ⟨by simp, by simp, rfl, rfl, by simp [ha], fun _ => ⟨_, rfl, rfl, rfl⟩⟩

theorem delivers_cons {s : State} {p : Pins} {e : Entry} {es : List Entry} (hr : p.rst = false)
    (hq : s.q = e :: es) :
    s.delivers p = if e.ripe s.params = true ∧ p.rspReady = true then some e.response else none := by
  cases hready : p.rspReady <;> simp [State.delivers, hr, hready, offered_cons hq]

theorem delivers_not_ready {s : State} {p : Pins} (h : p.rspReady = false) : s.delivers p = none := by
  simp [State.delivers, h]

/-- No response transfers: Q ages. -/
theorem State.Follows.keeps {s s' : State} {new : List Entry} (h : s'.Follows s new)
    (hd : s.delivers s.nextPins = none) :
    s'.q = s.q.map Entry.older ++ new ∧
      deliveredSinceReset s'.trace = deliveredSinceReset s.trace := by
  obtain ⟨hq, htrace⟩ := quietEdge_keeps s _ hd
  rw [h.q, h.delivered, hq, htrace]
  exact ⟨rfl, rfl⟩

/-- A response transfers: it leaves the head of Q, and the others age. -/
theorem State.Follows.delivers {s s' : State} {new : List Entry} (h : s'.Follows s new) {x : Response}
    (hd : s.delivers s.nextPins = some x) :
    s'.q = s.q.tail.map Entry.older ++ new ∧
      deliveredSinceReset s'.trace = deliveredSinceReset s.trace ++ [x] := by
  obtain ⟨hq, htrace⟩ := quietEdge_delivers s _ hd
  rw [h.q, h.delivered, hq, htrace, deliveredSinceReset]
  exact ⟨rfl, rfl⟩

/-- Settles O48: the two cases of the response channel, over the two of the request channel. -/
theorem responseTransferRemovesTheHead : Obligations.ResponseTransferRemovesTheHead := by
  intro s e es hq hr
  obtain ⟨s', new, hstep, h⟩ := step_follows hr
  refine ⟨s', new, hstep, ?_, h.idle, h.accepted⟩
  have hd := delivers_cons hr hq
  split
  · next hc =>
    rw [if_pos hc] at hd
    simpa [hq] using h.delivers hd
  · next hc =>
    rw [if_neg hc] at hd
    exact h.keeps hd

theorem ripe_older {p : Params} {e : Entry} (h : e.ripe p = true) : e.older.ripe p = true := by
  rw [ripe_iff] at h ⊢
  exact Nat.le_succ_of_le h

/-- Settles O47: the head stays, and a ripe entry that ages is ripe. -/
theorem responseIsHeldUntilTaken : Obligations.ResponseIsHeldUntilTaken := by
  intro s hvalid hr hready
  obtain ⟨e, es, hq, hripe⟩ := (rspValid_iff s).mp hvalid
  obtain ⟨s', new, hstep, h⟩ := step_follows hr
  obtain ⟨hq', hdelivered⟩ := h.keeps (delivers_not_ready hready)
  have hq' : s'.q = e.older :: (es.map Entry.older ++ new) := by simp [hq', hq]
  have hripe' : e.older.ripe s'.params = true := h.params ▸ ripe_older hripe
  obtain ⟨hstatus, hdata⟩ := outputs_of_ripe hq hripe
  obtain ⟨hstatus', hdata'⟩ := outputs_of_ripe hq' hripe'
  exact ⟨s', hstep, (rspValid_iff s').mpr ⟨_, _, hq', hripe'⟩, hstatus'.trans hstatus.symm,
    hdata'.trans hdata.symm, hdelivered⟩

/-- Settles O49: the response leaves at the edge's quiet part, and the request's answer then joins. -/
theorem requestAndResponseTransferAtOneEdge : Obligations.RequestAndResponseTransferAtOneEdge := by
  intro s e es h hdone hq hripe hroom hr hvalid hready
  have ha : s.accepts s.nextPins = true := (accepts_iff _ _).mpr ⟨hr, hvalid, hdone, hroom⟩
  have hd : s.delivers s.nextPins = some e.response := by
    rw [delivers_cons hr hq, if_pos ⟨hripe, hready⟩]
  obtain ⟨hq', htrace⟩ := quietEdge_delivers s _ hd
  refine ⟨_, edge_accepts_answer (h.valid_of_accepts ha) ha, ?_, ?_⟩
  · rw [push_q, noteAccepted_q, hq', hq]
    rfl
  · rw [push_trace, noteAccepted_trace, htrace]

/-! ### Runs in which the host is idle (R28) -/

theorem comingPins_head {s : State} {k : Nat} {ok : Pins → Prop} (h : s.comingPins (k + 1) ok) :
    ok s.nextPins :=
  (comingPins_succ (s' := { s with pins := s.pins.tail }) h rfl).1

/-- The host resets, offers and takes nothing. -/
def Pins.Silent (p : Pins) : Prop := p.rst = false ∧ p.reqValid = false ∧ p.rspReady = false

theorem accepts_silent {p : Pins} (h : p.Silent) (s : State) : s.accepts p = false := by
  obtain ⟨-, hvalid, -⟩ := h
  simp [State.accepts, hvalid]

/-- k silent edges make the only entry of Q k edges older. -/
theorem run_silent (k : Nat) : ∀ (s : State) (e : Entry), s.q = [e] → s.comingPins k Pins.Silent →
    ∃ s' e', Host.Core.run Sys2Proof.core k s = .next s' ∧ s'.params = s.params ∧ s'.q = [e'] ∧
      e'.op = e.op ∧ e'.age = e.age + k := by
  induction k with
  | zero => exact fun s e hq _ => ⟨s, e, rfl, rfl, hq, rfl, rfl⟩
  | succ k ih =>
    intro s e hq hpins
    have hsilent := comingPins_head hpins
    have ⟨hr, _, hready⟩ := hsilent
    obtain ⟨s₁, new, hstep, h⟩ := step_follows hr
    obtain ⟨-, hpins₁⟩ := comingPins_succ hpins h.pins
    obtain ⟨hq₁, -⟩ := h.keeps (delivers_not_ready hready)
    rw [hq, h.idle (accepts_silent hsilent s)] at hq₁
    obtain ⟨s', e', hrun, hparams, hq', hop, hage⟩ := ih s₁ e.older hq₁ hpins₁
    refine ⟨s', e', (run_succ hstep k).trans hrun, hparams.trans h.params, hq', hop, ?_⟩
    rw [hage, older_age]
    omega

theorem one_le_maxOutstanding {p : Params} (h : p.wf = true) : 1 ≤ p.maxOutstanding := by
  simp only [Params.wf, Bool.and_eq_true, decide_eq_true_eq] at h
  exact h.1

/-- Settles O50: the accepted request's entry starts at age 0 and is k edges old after k silent edges. -/
theorem responseIsOfferedAfterItsLatency : Obligations.ResponseIsOfferedAfterItsLatency := by
  intro s p ps k hwf hdone hq hpins hr hvalid hk hsilent
  have hnext : s.nextPins = p := by simp [State.nextPins, hpins]
  have ha : s.accepts s.nextPins = true := by
    rw [accepts_iff, hnext, hq]
    exact ⟨hr, hvalid, hdone, one_le_maxOutstanding hwf⟩
  obtain ⟨s₁, new, hstep, h⟩ := step_follows (hnext ▸ hr : s.nextPins.rst = false)
  obtain ⟨e, rfl, hop, hage⟩ := h.accepted ha
  have hq₁ : s₁.q = [e] := by
    have hnil : (s.quietEdge s.nextPins).q = [] := by
      simpa [hq] using quietEdge_length_le s s.nextPins
    rw [h.q, hnil, List.nil_append]
  have hpins₁ : s₁.comingPins k Pins.Silent := by
    rw [State.comingPins, h.pins, hpins, List.tail_cons]
    exact ⟨hk, hsilent⟩
  obtain ⟨s', e', hrun, hparams, hq', hop', hage'⟩ := run_silent k s₁ e hq₁ hpins₁
  refine ⟨s', (run_succ hstep k).trans hrun, ?_⟩
  rw [rspValid_cons hq', ripe_iff, hparams, h.params, hop', hop, hnext, hage', hage, Nat.zero_add]

/-! ### Runs in which the host takes every response (R29) -/

/-- The host does not reset and takes the response on offer. -/
def Pins.Taking (p : Pins) : Prop := p.rst = false ∧ p.rspReady = true

/-- The record of responses only grows. -/
theorem run_taking_grows (k : Nat) : ∀ s : State, s.comingPins k Pins.Taking →
    ∃ s' later, Host.Core.run Sys2Proof.core k s = .next s' ∧
      deliveredSinceReset s'.trace = deliveredSinceReset s.trace ++ later := by
  induction k with
  | zero => exact fun s _ => ⟨s, [], rfl, (List.append_nil _).symm⟩
  | succ k ih =>
    intro s hpins
    obtain ⟨s₁, new, hstep, h⟩ := step_follows (comingPins_head hpins).1
    obtain ⟨s', later, hrun, hlater⟩ := ih s₁ (comingPins_succ hpins h.pins).2
    have hrun := (run_succ hstep k).trans hrun
    cases hd : s.delivers s.nextPins with
    | none => exact ⟨s', later, hrun, by rw [hlater, (h.keeps hd).2]⟩
    | some x => exact ⟨s', x :: later, hrun, by rw [hlater, (h.delivers hd).2]; simp⟩

/-- The entry is ripe once `m` more edges have aged it. -/
def Entry.RipeWithin (p : Params) (m : Nat) (e : Entry) : Prop := p.latOf e.op - 1 ≤ e.age + m

theorem ripeWithin_older {p : Params} {m : Nat} {e : Entry} (h : e.RipeWithin p m) :
    e.older.RipeWithin p (m - 1) := by
  simp only [Entry.RipeWithin, older_op, older_age] at h ⊢
  omega

theorem pos_of_ripeWithin {p : Params} {m : Nat} {e : Entry} (h : e.RipeWithin p m)
    (hnot : e.ripe p ≠ true) : 0 < m := by
  rw [Ne, ripe_iff] at hnot
  simp only [Entry.RipeWithin] at h
  omega

/-- One edge of progress for the entries `w` at the head of Q, each ripe within `m` edges: the first of them
leaves, or all stay and have an edge less to ripen. -/
theorem step_taking {s : State} {w rest : List Entry} {m : Nat} (hpins : s.nextPins.Taking)
    (hq : s.q = w ++ rest) (hne : w ≠ []) (hripe : ∀ e ∈ w, e.RipeWithin s.params m) :
    ∃ s' new gone kept, step s = .next s' ∧ s'.Follows s new ∧ w = gone ++ kept ∧
      s'.q = kept.map Entry.older ++ (rest.map Entry.older ++ new) ∧
      deliveredSinceReset s'.trace = deliveredSinceReset s.trace ++ gone.map Entry.response ∧
      m - 1 + kept.length < m + w.length := by
  obtain ⟨e, es, rfl⟩ := List.exists_cons_of_ne_nil hne
  obtain ⟨hr, hready⟩ := hpins
  obtain ⟨s', new, hstep, h⟩ := step_follows hr
  have hd := delivers_cons hr hq
  by_cases hc : e.ripe s.params = true
  · rw [if_pos ⟨hc, hready⟩] at hd
    obtain ⟨hq', hdelivered⟩ := h.delivers hd
    refine ⟨s', new, [e], es, hstep, h, rfl, by simp [hq', hq], hdelivered, ?_⟩
    rw [List.length_cons]
    omega
  · rw [if_neg (fun hboth => hc hboth.1)] at hd
    obtain ⟨hq', hdelivered⟩ := h.keeps hd
    have hm := pos_of_ripeWithin (hripe e List.mem_cons_self) hc
    exact ⟨s', new, [], e :: es, hstep, h, rfl, by simp [hq', hq], by simp [hdelivered], by omega⟩

/-- The entries `w` at the head of Q, each ripe within `m` edges, are all delivered in `m` edges and one
more for each of them. -/
theorem run_taking_delivers (k : Nat) : ∀ (s : State) (w rest : List Entry) (m : Nat),
    s.q = w ++ rest → (∀ e ∈ w, e.RipeWithin s.params m) → m + w.length ≤ k →
    s.comingPins k Pins.Taking →
    ∃ s' later, Host.Core.run Sys2Proof.core k s = .next s' ∧
      deliveredSinceReset s'.trace = deliveredSinceReset s.trace ++ w.map Entry.response ++ later := by
  induction k with
  | zero =>
    intro s w rest m _ _ hk _
    obtain rfl : w = [] := List.length_eq_zero_iff.mp (by omega)
    exact ⟨s, [], rfl, by simp⟩
  | succ k ih =>
    intro s w rest m hq hripe hk hpins
    by_cases hw : w = []
    · subst hw
      simpa using run_taking_grows (k + 1) s hpins
    obtain ⟨s₁, new, gone, kept, hstep, h, rfl, hq₁, hdelivered, hless⟩ :=
      step_taking (comingPins_head hpins) hq hw hripe
    have hripe₁ : ∀ e ∈ kept.map Entry.older, e.RipeWithin s₁.params (m - 1) := by
      rw [h.params, List.forall_mem_map]
      exact fun e he => ripeWithin_older (hripe e (List.mem_append_right gone he))
    obtain ⟨s', later, hrun, hlater⟩ := ih s₁ (kept.map Entry.older) _ (m - 1) hq₁ hripe₁
      (by rw [List.length_map]; omega) (comingPins_succ hpins h.pins).2
    refine ⟨s', later, (run_succ hstep k).trans hrun, ?_⟩
    simp [hlater, hdelivered, Function.comp_def]

/-- Settles O56: every waiting entry is ripe within the bound of LAT. -/
theorem everyWaitingResponseIsDelivered : Obligations.EveryWaitingResponseIsDelivered := by
  intro s bound k hlat hk hpins
  refine run_taking_delivers k s s.q [] bound (List.append_nil _).symm (fun e _ => ?_) hk hpins
  have := hlat e.op
  simp only [Entry.RipeWithin]
  omega

end Sys2Proof.Machine

/-! The laws of valid tables, and the construction run from any content and run twice
(spec/20_memory.md R44 to R46). -/

namespace Sys2Proof.Machine

/-! ### Valid tables (R46) -/

theorem pow_generator_inj {i j : Nat} (hi : i < 255) (hj : j < 255)
    (h : pow generator i = pow generator j) : i = j :=
  congrArg Fin.val (@pow_generator_injective ⟨i, hi⟩ ⟨j, hj⟩ h)

section

variable {t u : Tables} (ht : t.Valid) (hu : u.Valid)

include ht

theorem Tables.Valid.readExp_injective : Function.Injective t.readExp := by
  intro i j h
  rw [ht.exp, ht.exp] at h
  exact pow_generator_injective h

theorem Tables.Valid.readExp_ne_zero (i : Fin 255) : t.readExp i ≠ 0 := by
  rw [ht.exp]
  exact pow_generator_ne_zero i

/-- EXP[LOG[v]] = v. -/
theorem Tables.Valid.readExp_readLog {v : Byte} (hv : v ≠ 0) :
    ∃ h : (t.readLog v).toNat < 255, t.readExp ⟨_, h⟩ = v := by
  obtain ⟨hlt, hpow⟩ := ht.log v hv
  exact ⟨hlt, (ht.exp ⟨_, hlt⟩).trans hpow⟩

/-- LOG[EXP[i]] = i: EXP takes both exponents to EXP[i]. -/
theorem Tables.Valid.readLog_readExp (i : Fin 255) : (t.readLog (t.readExp i)).toNat = i := by
  obtain ⟨_, h⟩ := ht.readExp_readLog (ht.readExp_ne_zero i)
  exact congrArg Fin.val (ht.readExp_injective h)

theorem Tables.Valid.readInv_eq_gfinv (a : Byte) : t.readInv a = gfinv a :=
  congrFun (invBy_eq_gfinv ht .table) a

include hu

/-- A nonzero byte has one logarithm. -/
theorem Tables.Valid.readLog_eq {v : Byte} (hv : v ≠ 0) : t.readLog v = u.readLog v := by
  obtain ⟨hlt, hpow⟩ := ht.log v hv
  obtain ⟨hlt', hpow'⟩ := hu.log v hv
  exact BitVec.eq_of_toNat_eq (pow_generator_inj hlt hlt' (hpow.trans hpow'.symm))

/-- Validity leaves no freedom but LOG[0]: canonical valid tables that agree there are the same data. -/
theorem Tables.Valid.eq_of_readLog_zero (htw : t.wf = true) (huw : u.wf = true)
    (h0 : t.readLog 0 = u.readLog 0) : t = u := by
  obtain ⟨hexp, hlog, hmul, hinv⟩ := (tables_wf_iff t).mp htw
  obtain ⟨hexp', hlog', hmul', hinv'⟩ := (tables_wf_iff u).mp huw
  have exp : t.exp = u.exp := memory_ext .exp _ _ hexp hexp' fun i =>
    (ht.exp i).trans (hu.exp i).symm
  have log : t.log = u.log := memory_ext .log _ _ hlog hlog' fun i => by
    change t.readLog (.ofFin i) = u.readLog (.ofFin i)
    by_cases hv : BitVec.ofFin i = (0 : Byte)
    · rw [hv, h0]
    · exact ht.readLog_eq hu hv
  have multab : t.multab = u.multab := memory_ext .multab _ _ hmul hmul' fun i => by
    obtain ⟨a, b, rfl⟩ := exists_pairIndex i
    exact (ht.multab a b).trans (hu.multab a b).symm
  have invtab : t.invtab = u.invtab := memory_ext .invtab _ _ hinv hinv' fun i =>
    (ht.readInv_eq_gfinv (.ofFin i)).trans (hu.readInv_eq_gfinv (.ofFin i)).symm
  cases t
  cases u
  congr

end

/-! ### The construction (R45) -/

/-- No power of the generator is 0, so the first loop does not write LOG[0], and the others write no LOG. -/
theorem build_readLog_zero (t : Tables) : t.build.readLog 0 = t.readLog 0 := by
  have powers : t.buildPowers.readLog 0 = t.readLog 0 := by
    rcases buildExpLog_log (List.finRange 255) t 0 with ⟨i, _, hpow, _⟩ | ⟨_, hkeep⟩
    · exact absurd hpow (pow_generator_ne_zero i)
    · exact hkeep
  obtain ⟨-, products, -, -⟩ := buildMul_all allBytes allBytes t.buildPowers
  obtain ⟨-, inverses, -, -⟩ := buildInv_all allBytes t.buildPowers.buildProducts
  have log : t.build.log = t.buildPowers.log := inverses.trans products
  exact (congrArg (Memory.read .log · (0 : Byte).toFin) log).trans powers

/-! ### The statements -/

/-- Settles O33: EXP is the powers of the generator and LOG their exponents; MULTAB is commutative as the
field product is. -/
theorem tableLawsHold : Obligations.TableLawsHold := by
  intro t ht
  refine ⟨fun i j h => ht.readExp_injective h, fun v => ⟨?_, fun hv => ?_⟩, ht.readLog_readExp,
    fun v hv => ht.readExp_readLog hv, fun a b => ?_, ht.inv⟩
  · rintro ⟨i, rfl⟩
    exact ht.readExp_ne_zero i
  · obtain ⟨h, hexp⟩ := ht.readExp_readLog hv
    exact ⟨⟨_, h⟩, hexp⟩
  · rw [ht.multab, ht.multab, gfmul_comm]

/-- Settles O34: the procedure gives valid canonical tables and keeps LOG[0], and such tables are unique. -/
theorem buildFillsTheTables : Obligations.BuildFillsTheTables := by
  intro t ht
  have wf := build_wf ht
  have again : t.build.build = t.build :=
    (build_valid t.build).eq_of_readLog_zero (build_valid t) (build_wf wf) wf (build_readLog_zero t.build)
  exact ⟨build_valid t, wf, build_readLog_zero t, again⟩

end Sys2Proof.Machine

/-! The decoder and the encoder against each other and against the bits each opcode names
(spec/30_encoding.md R60 to R69), and what the assembler makes of each line (R70 to R72). -/

namespace Sys2Proof.Machine

/-! ### The fields of an encoded word -/
section
variable (op : OpCode) (a b : Byte) (p q : Packed)

@[simp] theorem opField_wordBB : opField (wordBB op a b) = op := (wordBB_fields op a b).1
@[simp] theorem byteA_wordBB : byteA (wordBB op a b) = a := (wordBB_fields op a b).2.1
@[simp] theorem byteB_wordBB : byteB (wordBB op a b) = b := (wordBB_fields op a b).2.2

@[simp] theorem opField_wordWW : opField (wordWW op p q) = op := (wordWW_fields op p q).1
@[simp] theorem packedA_wordWW : packedA (wordWW op p q) = p := (wordWW_fields op p q).2.1
@[simp] theorem packedB_wordWW : packedB (wordWW op p q) = q := (wordWW_fields op p q).2.2

end

/-- Decoding is by the fields of the word's form: those of BB, of WW or of CM. -/
theorem decode_encode (i : Instr) : decode (encode i) = .ok i := by
  cases i with
  | mulp4 a b => simp [encode, decode]
  | dec c0 c1 c2 c3 c4 c5 present =>
    obtain ⟨hop, h0, h1, h2, h3, h4, h5, hpresent⟩ := wordCM_fields 0x8 c0 c1 c2 c3 c4 c5 present
    simp only [encode, decode, hop, h0, h1, h2, h3, h4, h5, hpresent]
    rfl
  | _ => simp [encode, decode]

/-- Settles O1: the fields of each form's word are what the form's word was made of. -/
theorem decodeOfEncodeIsTheInstruction : Obligations.DecodeOfEncodeIsTheInstruction := decode_encode

/-! ### Every word is one arm's (R69) -/

theorem instr_op_lt (i : Instr) : i.op.toNat < 9 := by
  cases i with
  | _ => simp [Instr.op]

theorem op_of_decode {w : ReqWord} {i : Instr} (h : decode w = .ok i) : i.op = opField w := by
  rcases decode_op w with ⟨j, hj, hop⟩ | herr
  · rwa [Except.ok.inj (h.symm.trans hj)]
  · cases h.symm.trans herr

theorem exists_decode_of_op_lt {w : ReqWord} (h : (opField w).toNat < 9) :
    ∃ i, decode w = .ok i ∧ i.op = opField w := by
  rcases decode_op w with hi | herr
  · exact hi
  · have hres : 9 ≤ (opField w).toNat := of_decide_eq_true (reservedOp_of_decode_error herr)
    omega

theorem decode_of_le_op {w : ReqWord} (h : 9 ≤ (opField w).toNat) :
    decode w = .error (.reservedOp (opField w)) := by
  rcases decode_op w with ⟨i, -, hop⟩ | herr
  · have := hop ▸ instr_op_lt i
    omega
  · exact herr

/-- Settles O4: the codes of the instructions are below 9, and that of a word without one is not. -/
theorem everyWordDecodesToOneArm : Obligations.EveryWordDecodesToOneArm :=
  fun _ => ⟨exists_decode_of_op_lt, decode_of_le_op⟩

/-! ### A word ANDed with a word of each form (R63)

A mask of named bits is itself a word of its opcode's form, with all ones in each operand. -/

theorem and_zero_append {m n : Nat} (x : BitVec (m + n)) (a : BitVec n) :
    x &&& (0#m ++ a) = 0#m ++ (x.extractLsb' 0 n &&& a) := by
  conv_lhs => rw [← BitVec.extractLsb'_append_extractLsb' (x := x)]
  rw [BitVec.and_append, BitVec.and_zero]

/-- A word ANDed with the word of a request, field by field. -/
theorem and_word (w : ReqWord) (r : Request) :
    w &&& r.word = Request.word ⟨opField w &&& r.op, aField w &&& r.a, bField w &&& r.b⟩ := by
  conv_lhs => rw [← requestOf_word w]
  exact BitVec.and_append.trans (congrArg (· ++ (bField w &&& r.b)) BitVec.and_append)

theorem and_wordBB (w : ReqWord) (op : OpCode) (a b : Byte) :
    w &&& wordBB op a b = wordBB (opField w &&& op) (byteA w &&& a) (byteB w &&& b) :=
  (and_word w ⟨op, 0#40 ++ a, 0#24 ++ b⟩).trans
    (congrArg₂ (fun x y => Request.word ⟨opField w &&& op, x, y⟩)
      (and_zero_append (m := 40) (aField w) a) (and_zero_append (m := 24) (bField w) b))

theorem and_wordWW (w : ReqWord) (op : OpCode) (a b : Packed) :
    w &&& wordWW op a b = wordWW (opField w &&& op) (packedA w &&& a) (packedB w &&& b) := by
  rw [packedB, BitVec.extractLsb'_eq_self]
  exact (and_word w ⟨op, 0#16 ++ a, b⟩).trans
    (congrArg (fun x => Request.word ⟨opField w &&& op, x, bField w &&& b⟩)
      (and_zero_append (m := 16) (aField w) a))

theorem aField_eq_symbols (w : ReqWord) :
    aField w = symbolField w 5 ++ symbolField w 4 ++ symbolField w 3 ++ symbolField w 2 ++
      symbolField w 1 ++ symbolField w 0 := by
  ext i hi
  simp [symbolField]
  grind

/-- The library's rule for two concatenations of one shape, at six symbols. -/
theorem symbols_and_symbols (c0 c1 c2 c3 c4 c5 d0 d1 d2 d3 d4 d5 : Byte) :
    (c5 ++ c4 ++ c3 ++ c2 ++ c1 ++ c0) &&& (d5 ++ d4 ++ d3 ++ d2 ++ d1 ++ d0) =
      (c5 &&& d5) ++ (c4 &&& d4) ++ (c3 &&& d3) ++ (c2 &&& d2) ++ (c1 &&& d1) ++ (c0 &&& d0) := by
  simp only [BitVec.and_append]

theorem and_wordCM (w : ReqWord) (op : OpCode) (c0 c1 c2 c3 c4 c5 : Byte) (present : BitVec 6) :
    w &&& wordCM op c0 c1 c2 c3 c4 c5 present =
      wordCM (opField w &&& op) (symbolField w 0 &&& c0) (symbolField w 1 &&& c1)
        (symbolField w 2 &&& c2) (symbolField w 3 &&& c3) (symbolField w 4 &&& c4)
        (symbolField w 5 &&& c5) (presentField w &&& present) :=
  (and_word w ⟨op, c5 ++ c4 ++ c3 ++ c2 ++ c1 ++ c0, 0#26 ++ present⟩).trans
    (congrArg₂ (fun x y => Request.word ⟨opField w &&& op, x, y⟩)
      ((congrArg (· &&& _) (aField_eq_symbols w)).trans (symbols_and_symbols ..))
      (and_zero_append (m := 26) (bField w) present))

/-! ### The bits an opcode names (R67) -/
section
variable {w : ReqWord} {op : OpCode} (hop : op = opField w)
include hop

/-- Form BB. -/
theorem wordBB_eq_and_usedBits (hused : usedBits op = wordBB (.allOnes 4) (.allOnes 8) (.allOnes 8)) :
    wordBB op (byteA w) (byteB w) = w &&& usedBits (opField w) := by
  rw [← hop, hused, and_wordBB, ← hop]
  simp only [BitVec.and_allOnes]

/-- Form B. -/
theorem wordB_eq_and_usedBits (hused : usedBits op = wordBB (.allOnes 4) (.allOnes 8) 0) :
    wordBB op (byteA w) 0 = w &&& usedBits (opField w) := by
  rw [← hop, hused, and_wordBB, ← hop]
  simp only [BitVec.and_allOnes, BitVec.and_zero, BitVec.ofNat_eq_ofNat]

/-- Form WW. -/
theorem wordWW_eq_and_usedBits (hused : usedBits op = wordWW (.allOnes 4) (.allOnes 32) (.allOnes 32)) :
    wordWW op (packedA w) (packedB w) = w &&& usedBits (opField w) := by
  rw [← hop, hused, and_wordWW, ← hop]
  simp only [BitVec.and_allOnes]

/-- Form CM. -/
theorem wordCM_eq_and_usedBits (hused : usedBits op = wordCM (.allOnes 4) (.allOnes 8) (.allOnes 8)
      (.allOnes 8) (.allOnes 8) (.allOnes 8) (.allOnes 8) (.allOnes 6)) :
    wordCM op (symbolField w 0) (symbolField w 1) (symbolField w 2) (symbolField w 3)
      (symbolField w 4) (symbolField w 5) (presentField w) = w &&& usedBits (opField w) := by
  rw [← hop, hused, and_wordCM, ← hop]
  simp only [BitVec.and_allOnes]

end

theorem encode_of_decode {w : ReqWord} {i : Instr} (h : decode w = .ok i) :
    encode i = w &&& usedBits (opField w) := by
  have hop := op_of_decode h
  unfold decode at h
  split at h <;> cases h
  -- The arms of MULP4, INV and DEC; the others are of form BB.
  case h_5 => exact wordWW_eq_and_usedBits hop (by decide)
  case h_6 => exact wordB_eq_and_usedBits hop (by decide)
  case h_9 => exact wordCM_eq_and_usedBits hop (by decide)
  all_goals exact wordBB_eq_and_usedBits hop (by decide)

/-- Settles O3: the fields of a form, put back, are the word ANDed with the form's mask. -/
theorem encodeOfDecodeKeepsTheNamedBits : Obligations.EncodeOfDecodeKeepsTheNamedBits :=
  fun _ _ h => encode_of_decode h

theorem opField_usedBits : ∀ op : OpCode, opField (usedBits op) = .allOnes 4 := by decide

/-- OP is among the named bits of every code. -/
theorem opField_and_usedBits (w : ReqWord) (op : OpCode) : opField (w &&& usedBits op) = opField w := calc
  opField (w &&& usedBits op) = opField w &&& opField (usedBits op) := BitVec.extractLsb'_and
  _ = opField w := by rw [opField_usedBits, BitVec.and_allOnes]

theorem encode_injective : Function.Injective encode := by
  intro i j h
  rw [← Except.ok.injEq (ε := DecodeError), ← decode_encode i, h, decode_encode]

/-- Words that agree on the bits that OP names decode alike: to instructions with one encoding, or to one
reserved code. -/
theorem decode_congr {w w' : ReqWord}
    (h : w &&& usedBits (opField w) = w' &&& usedBits (opField w)) : decode w = decode w' := by
  have hop : opField w = opField w' := by
    rw [← opField_and_usedBits w (opField w), h, opField_and_usedBits]
  by_cases hlt : (opField w).toNat < 9
  · obtain ⟨i, hi, -⟩ := exists_decode_of_op_lt hlt
    obtain ⟨j, hj, -⟩ := exists_decode_of_op_lt (hop ▸ hlt)
    have hij : encode i = encode j := by rw [encode_of_decode hi, h, hop, encode_of_decode hj]
    rw [hi, hj, encode_injective hij]
  · have hle : 9 ≤ (opField w).toNat := Nat.le_of_not_lt hlt
    rw [decode_of_le_op hle, decode_of_le_op (hop ▸ hle), hop]

theorem opField_encode (i : Instr) : opField (encode i) = i.op := (op_of_decode (decode_encode i)).symm

theorem encode_and_not_usedBits (i : Instr) : encode i &&& ~~~ usedBits i.op = 0 := by
  have named : encode i = encode i &&& usedBits i.op := by
    simpa only [opField_encode] using encode_of_decode (decode_encode i)
  rw [named, BitVec.and_assoc, BitVec.and_not_self]
  exact BitVec.and_zero

theorem eq_expandLine_of_assemble {l : AsmLine} {rs : List HostRequest} (h : assemble l = .ok rs) :
    rs = expandLine l := by
  rw [assemble_eq] at h
  split at h
  · exact (Except.ok.inj h).symm
  · cases h

@[simp] theorem sendWord_word (last : Response) (w : ReqWord) : sendWord last (.word w) = w := rfl
@[simp] theorem sendWord_multByLast (last : Response) (a : Byte) :
    sendWord last (.multByLast a) = encode (.mult a (last.data.extractLsb' 0 8)) := rfl

/-- What the host sends for a line other than `.word` is an instruction's word, DIV's second request
after any response included. -/
theorem exists_sendWord_eq_encode {l : AsmLine} {r : HostRequest} (hl : ∀ op a b, l ≠ .word op a b)
    (hr : r ∈ expandLine l) (last : Response) : ∃ i, sendWord last r = encode i := by
  cases l with
  | word op a b => exact absurd rfl (hl op a b)
  | div a b =>
    rcases List.mem_pair.mp hr with rfl | rfl
    · exact ⟨_, sendWord_word ..⟩
    · exact ⟨_, sendWord_multByLast ..⟩
  | _ =>
    obtain rfl := List.mem_singleton.mp hr
    exact ⟨_, sendWord_word ..⟩

/-- Settles O2: a word's instruction is determined by its named bits, and an instruction's word has no
others. -/
theorem ignoredBitsDoNotMatter : Obligations.IgnoredBitsDoNotMatter := by
  refine ⟨fun w w' s h => ?_, encode_and_not_usedBits, fun l rs r last hl hrs hr => ?_⟩
  · simp only [execRequest, requestOf_word, decode_congr h]
  · rw [eq_expandLine_of_assemble hrs] at hr
    obtain ⟨i, hi⟩ := exists_sendWord_eq_encode hl hr last
    rw [hi, opField_encode, encode_and_not_usedBits]

/-- Settles O5. -/
theorem writtenOutWordsDecode : Obligations.WrittenOutWordsDecode := by
  unfold Obligations.WrittenOutWordsDecode
  decide

/-! ### No edge stops the block (R62, R147) -/

/-- Settles O9: each of the three cases of an edge answers a next state. -/
theorem stepAlwaysAnswersANextState : Obligations.StepAlwaysAnswersANextState := by
  intro s
  cases hr : s.nextPins.rst with
  | true => exact ⟨_, edge_reset hr s⟩
  | false =>
    cases ha : s.accepts s.nextPins with
    | true =>
      obtain ⟨st, d, hexec⟩ := execRequest_next s.nextPins.request
        ((s.quietEdge s.nextPins).noteAccepted s.nextPins.request)
      exact ⟨_, (edge_accepts ha).trans hexec⟩
    | false => exact ⟨_, edge_quiet hr ha⟩

/-! ### What a line assembles to (R70) -/

theorem assemble_of_wf_iff {l : AsmLine} {p : Prop} [Decidable p] (h : l.wf = true ↔ p) :
    assemble l = if p then .ok (expandLine l) else .error .operandOutOfRange := by
  rw [assemble_eq]
  exact if_congr h rfl rfl

theorem fits_both_iff (n a b : Nat) : (fits n a && fits n b) = true ↔ a < 2 ^ n ∧ b < 2 ^ n := by
  rw [Bool.and_eq_true, fits_iff, fits_iff]

theorem word_wf_iff (op a b : Nat) :
    (AsmLine.word op a b).wf = true ↔ op < 16 ∧ a < 2 ^ 48 ∧ b < 2 ^ 32 := by
  simp only [AsmLine.wf, Bool.and_eq_true, fits_iff, and_assoc]
  rfl

theorem dec_wf_iff (c0 c1 c2 c3 c4 c5 : Nat) (ps : List Nat) :
    (AsmLine.dec c0 c1 c2 c3 c4 c5 ps).wf = true ↔
      (∀ c ∈ [c0, c1, c2, c3, c4, c5], c < 256) ∧ (∀ p ∈ ps, p < 6) ∧ ps.Nodup := by
  simp only [AsmLine.wf, Bool.and_eq_true, List.all_eq_true, fits_iff, decide_eq_true_eq, and_assoc]
  rfl

/-- Settles O57: a line is well formed exactly under the condition named, and then `expandLine` gives its
requests. -/
theorem assemblerPlacesTheOperands : Obligations.AssemblerPlacesTheOperands := by
  refine ⟨fun l h => by rw [assemble_eq, h]; rfl,
    fun a b => assemble_of_wf_iff (fits_both_iff 8 a b), fun a b => assemble_of_wf_iff (fits_both_iff 8 a b),
    fun a b => assemble_of_wf_iff (fits_both_iff 8 a b), fun a b => assemble_of_wf_iff (fits_both_iff 8 a b),
    fun base e => assemble_of_wf_iff (fits_both_iff 8 base e), fun a => assemble_of_wf_iff (fits_iff 8 a),
    fun a b => assemble_of_wf_iff (fits_both_iff 32 a b),
    fun y0 y1 => assemble_of_wf_iff (fits_both_iff 8 y0 y1),
    fun c0 c1 c2 c3 c4 c5 ps => ⟨maskOf ps, maskOf_bit ps, assemble_of_wf_iff (dec_wf_iff ..)⟩,
    fun op a b => assemble_of_wf_iff (word_wf_iff op a b), fun a b h => ?_⟩
  rw [assemble_of_wf_iff (l := .div a b) (fits_both_iff 8 a b)]
  exact if_neg h

/-! ### The pseudo-instructions (R71) and the example (R72) -/

theorem answer_encode (i : Instr) : answer (requestOf (encode i)) = answerInstr i := by
  simp only [answer, requestOf_word, decode_encode]

@[simp] theorem extractLsb'_zext48 (r : Byte) : (zext48 r).extractLsb' 0 8 = r := by
  rw [zext48, ← BitVec.setWidth_eq_extractLsb' (by decide)]
  simp

/-- DIV's answer (R71): `answer_second_of_div`. -/
def quotient (a b : Byte) : Byte := gfmul a (gfinv b)

theorem quotient_mul {a b : Byte} (hb : b ≠ 0) : gfmul (quotient a b) b = a := calc
  gfmul (quotient a b) b = gfmul a (gfmul b (gfinv b)) := by
    rw [quotient, gfmul_assoc, gfmul_comm b]
  _ = a := by rw [gfinv, gfmul_invLog rom_valid hb, gfmul_one_right]

/-- `INV 0` is 1. -/
theorem quotient_zero (a : Byte) : quotient a 0 = a := gfmul_one_right a

theorem answer_second_of_div (a b : Byte) :
    answer (requestOf (sendWord (answer (requestOf (encode (.inv b)))) (.multByLast a))) =
      ⟨.ok, zext48 (quotient a b)⟩ := by
  simp only [sendWord_multByLast, answer_encode, answerInstr, extractLsb'_zext48, quotient]

/-- Settles O58: each line and its expansion have the same condition and the same words; DIV's answer is
a · INV(b). -/
theorem pseudoInstructionsAreExact : Obligations.PseudoInstructionsAreExact := by
  refine ⟨fun _ _ => rfl, fun _ _ => rfl, fun a => ?double, fun a b => ?sub, fun a b => ?mul,
    fun a => ?sqr, fun a b => ⟨.multByLast a, quotient a b, ?div, sendWord_multByLast (a := a),
      answer_second_of_div a b, quotient_mul, ?zero⟩⟩
  case double =>
    simp only [assemble, AsmLine.wf, Bool.and_self]
    rfl
  case sub | mul | sqr | div => simp [assemble_eq, AsmLine.wf, expandLine]
  case zero =>
    rintro rfl
    exact quotient_zero a

/-- Settles O59: the line is read, and its word is that of ENC 10, 20. -/
theorem encodingExampleAssembles : Obligations.EncodingExampleAssembles := by
  have word : (0x700000000000A00000014 : ReqWord) = encode (.enc 10 20) := by decide
  refine ⟨by decide +kernel, ?_⟩
  rw [word, answer_encode]
  decide

end Sys2Proof.Machine

/-! The field's arithmetic (spec/40_field_arithmetic.md): the carry-less product as a product of
polynomials over GF(2), the reduction as its remainder modulo 0x11B, the laws of the field, and the
responses of ADD, MULB, MULL, MULT and POW. -/

namespace Sys2Proof.Machine

/-! ### The carry-less product (R81) -/

/-- Bit k of a shifted left by i is a[k − i], at the indexes k − i that exist. -/
theorem clterm_bit (a b : Byte) (i k : Nat) (hk : k < 16) :
    (clterm a b i).getLsbD k = (decide (i ≤ k) && a.getLsbD (k - i) && b.getLsbD i) := by
  unfold clterm
  split
  · next hb =>
    have hik : decide (i ≤ k) = !decide (k < i) := by simp only [← decide_not, Nat.not_lt]
    rw [BitVec.getLsbD_shiftLeft, BitVec.getLsbD_setWidth, hb, hik]
    simp [hk, show k - i < 16 by omega]
  · next hb => simp [hb]

theorem clmul_bit (a b : Byte) (k : Nat) (hk : k < 16) :
    (clmul a b).getLsbD k =
      (List.range 8).foldl (fun p i => p ^^ (decide (i ≤ k) && a.getLsbD (k - i) && b.getLsbD i)) false := by
  simp only [clmul_eq_terms, BitVec.getLsbD_xor, clterm_bit _ _ _ _ hk]
  simp [List.range, List.range.loop]

/-- 15 − i is no index of a byte, for an index i of b. -/
theorem clterm_bit_15 (a b : Byte) {i : Nat} (hi : i < 8) : (clterm a b i).getLsbD 15 = false := by
  rw [clterm_bit a b i 15 (by decide), BitVec.getLsbD_of_ge a (15 - i) (by omega)]
  simp

theorem clmul_bit_15 (a b : Byte) : (clmul a b).getLsbD 15 = false := by
  simp only [clmul_eq_terms, BitVec.getLsbD_xor, clterm_bit_15, Nat.reduceLT, Bool.xor_false]

theorem clmul_zero_left (b : Byte) : clmul 0 b = 0 := by
  simpa using clmul_xor_left 0 0 b

theorem clmul_zero_right (a : Byte) : clmul a 0 = 0 := by
  simpa using clmul_xor_right a 0 0

theorem clmul_comm_basis : ∀ i j : Fin 8, clmul (basis i) (basis j) = clmul (basis j) (basis i) := by
  decide +kernel

theorem clmul_comm (a b : Byte) : clmul a b = clmul b a := by
  induction a using byte_xor_induction with
  | zero => rw [clmul_zero_left, clmul_zero_right]
  | xor a a' ha ha' => rw [clmul_xor_left, clmul_xor_right, ha, ha']
  | one i =>
    induction b using byte_xor_induction with
    | zero => rw [clmul_zero_left, clmul_zero_right]
    | xor b b' hb hb' => rw [clmul_xor_left, clmul_xor_right, hb, hb']
    | one j => exact clmul_comm_basis i j

/-- Settles O27: bit by bit from the terms of the sum; commutativity on the powers of x, by linearity. -/
theorem carrylessProductCommutes : Obligations.CarrylessProductCommutes :=
  fun a b => ⟨clmul_bit a b, clmul_comm a b, clmul_bit_15 a b⟩

/-! ### The reduction is the remainder modulo 0x11B (R82) -/

/-- The sum over a list of positions of 0x11B shifted to those that are set in q. -/
def polyMultiple (q : Byte) (l : List Nat) : BitVec 16 :=
  l.foldl (fun r i => if q.getLsbD i then r ^^^ (0x11B#16 <<< i) else r) 0

/-- The term of `polyMultiple` for one position. -/
def polyTerm (q : Byte) (i : Nat) : BitVec 16 := if q.getLsbD i then 0x11B#16 <<< i else 0

theorem polyTerm_xor (q q' : Byte) (i : Nat) :
    polyTerm (q ^^^ q') i = polyTerm q i ^^^ polyTerm q' i := by
  unfold polyTerm
  rw [BitVec.getLsbD_xor]
  cases q.getLsbD i <;> cases q'.getLsbD i <;> simp

theorem polyMultiple_append_singleton (q : Byte) (l : List Nat) (i : Nat) :
    polyMultiple q (l ++ [i]) = polyMultiple q l ^^^ polyTerm q i := by
  rw [polyMultiple, List.foldl_append, ← polyMultiple, polyTerm]
  by_cases hi : q.getLsbD i <;> simp [hi]

theorem polyMultiple_xor (q q' : Byte) (l : List Nat) :
    polyMultiple (q ^^^ q') l = polyMultiple q l ^^^ polyMultiple q' l := by
  induction l using List.reverseRecOn with
  | nil => simp [polyMultiple]
  | append_singleton l i ih =>
    simp only [polyMultiple_append_singleton, ih, polyTerm_xor]
    ac_rfl

theorem polyMultiple_basis : ∀ k : Fin 8, polyMultiple (basis k) (List.range 8) = 0x11B#16 <<< k.val := by
  decide +kernel

theorem exists_clearBit_eq {k : Nat} (hk : k < 8) (p : BitVec 16) :
    ∃ q : Byte, p = clearBit k p ^^^ polyMultiple q (List.range 8) := by
  unfold clearBit
  split
  · exact ⟨basis ⟨k, hk⟩, by rw [polyMultiple_basis, BitVec.xor_assoc, BitVec.xor_self, BitVec.xor_zero]⟩
  · exact ⟨0, by simp [polyMultiple]⟩

theorem exists_reduceFor_eq (k : Nat) (hk : k ≤ 8) (p : BitVec 16) :
    ∃ q : Byte, p = reduceFor k p ^^^ polyMultiple q (List.range 8) := by
  induction k generalizing p with
  | zero => exact ⟨0, by simp [polyMultiple, reduceFor]⟩
  | succ k ih =>
    obtain ⟨q, hq⟩ := exists_clearBit_eq hk p
    obtain ⟨q', hq'⟩ := ih (by omega) (clearBit k p)
    exact ⟨q' ^^^ q, by rw [polyMultiple_xor, ← BitVec.xor_assoc, reduceFor, ← hq', ← hq]⟩

theorem reduceFor_lt (k : Nat) (hk : k ≤ 8) (p : BitVec 16) (h : p.toNat < 2 ^ (8 + k)) :
    (reduceFor k p).toNat < 2 ^ 8 := by
  induction k generalizing p with
  | zero => exact h
  | succ k ih => exact ih (by omega) _ (clearBit_lt k hk p h)

/-- "Here p[15:8] == 0": the byte that `reduce` returns is the whole of the loop's result. -/
theorem setWidth_reduce (p : BitVec 16) : (reduce p).setWidth 16 = reduceFor 8 p := by
  have hlt := reduceFor_lt 8 (le_refl 8) p p.isLt
  apply BitVec.eq_of_toNat_eq
  rw [reduce_eq_for]
  simp only [BitVec.toNat_setWidth, BitVec.extractLsb'_toNat, Nat.shiftRight_zero]
  omega

/-- Settles O28: each step of the loop takes away one shift of the polynomial, and multiples of it add. -/
theorem reduceGivesTheRemainder : Obligations.ReduceGivesTheRemainder := by
  intro p
  obtain ⟨q, hq⟩ := exists_reduceFor_eq 8 (le_refl 8) p
  exact ⟨q, by rw [setWidth_reduce]; exact hq⟩

/-! ### The laws of the field (R91) -/

/-- Multiply by a^254, the inverse of a nonzero a. -/
theorem eq_zero_of_gfmul_eq_zero {a b : Byte} (h : gfmul a b = 0) : a = 0 ∨ b = 0 := by
  by_cases ha : a = 0
  · exact .inl ha
  · refine .inr ?_
    calc b = gfmul (gfmul (pow a 254) a) b := by
          rw [gfmul_comm _ a, gfmul_pow_254 ha, gfmul_one_left]
      _ = 0 := by rw [gfmul_assoc, h, gfmul_zero_right]

/-- Settles O29: the laws are those of a bilinear product; there are inverses, so no zero divisors. -/
theorem fieldLawsHold : Obligations.FieldLawsHold :=
  fun a b c => ⟨gfmul_comm a b, gfmul_assoc a b c, gfmul_xor_right a b c, gfmul_one_right a,
    gfmul_zero_right a, eq_zero_of_gfmul_eq_zero⟩

/-! ### The strategies (R89) -/

/-- Settles O24: each strategy on valid tables is the field product. -/
theorem allMultiplyStrategiesAgree : Obligations.AllMultiplyStrategiesAgree :=
  fun _ ht a b => ⟨mulLog_eq_gfmul ht a b, ht.multab a b,
    fun impl => congrFun (congrFun (mulBy_eq_gfmul ht impl) a) b⟩

/-! ### The operands of form BB (spec/30_encoding.md R63) -/

@[simp] theorem byteA_word (r : Request) : byteA r.word = r.a.extractLsb' 0 8 := by
  rw [byteA, aField_word]

@[simp] theorem byteB_word (r : Request) : byteB r.word = r.b.extractLsb' 0 8 := by
  rw [byteB, bField_word]

/-- Where a code's words decode by form BB, its requests run on A[7:0] and B[7:0]. -/
theorem execRequest_formBB {op : OpCode} {instr : Byte → Byte → Instr}
    (hop : ∀ w, opField w = op → decode w = .ok (instr (byteA w) (byteB w)))
    (A : BitVec 48) (B : BitVec 32) (s : State) :
    execRequest ⟨op, A, B⟩ s = exec (instr (A.extractLsb' 0 8) (B.extractLsb' 0 8)) s := by
  have hdecode := hop (Request.word ⟨op, A, B⟩) (opField_word _)
  rw [byteA_word, byteB_word] at hdecode
  exact execRequest_of_decode hdecode s

/-! ### ADD (R80, R90) -/

theorem exec_add (a b : Byte) (s : State) :
    exec (.add a b) s = .next (s.push ⟨.ok, (a ^^^ b).setWidth 48, 0x0, 0⟩) := rfl

/-- Settles O10: `exec` runs R80's one line, and OP 0x0 decodes by form BB. -/
theorem addAnswersTheXor : Obligations.AddAnswersTheXor :=
  ⟨exec_add, execRequest_formBB fun w hw => by simp [decode, hw]⟩

/-- Settles O11: the laws are those of XOR. -/
theorem addObeysItsLaws : Obligations.AddObeysItsLaws := by
  intro a b c s
  simp only [exec_add]
  refine ⟨?involution, ?self, ?comm, ?assoc, ?zero⟩
  case involution => rw [← BitVec.xor_assoc, BitVec.xor_self, BitVec.zero_xor]
  case self => simp
  case comm => rw [BitVec.xor_comm]
  case assoc => rw [BitVec.xor_assoc]
  case zero => simp

/-! ### MULB (R83) -/

theorem exec_mulb (a b : Byte) (s : State) :
    exec (.mulb a b) s = .next (s.push ⟨.ok, (gfmul a b).setWidth 48, 0x1, 0⟩) := rfl

/-- Settles O12: the corner cases are the zero and the one of the field; the reductions are evaluated. -/
theorem mulbAnswersTheFieldProduct : Obligations.MulbAnswersTheFieldProduct :=
  ⟨exec_mulb, fun a => ⟨gfmul_zero_right a, gfmul_zero_left a, gfmul_one_right a⟩, by decide +kernel,
    execRequest_formBB fun w hw => by simp [decode, hw]⟩

/-! ### MULL (R86, R87) -/

theorem exec_mull (a b : Byte) (s : State) :
    exec (.mull a b) s = .next (s.push ⟨.ok, (mulLog s.tables a b).setWidth 48, 0x2, 0⟩) := rfl

theorem mulLog_zero {a b : Byte} (h : a = 0 ∨ b = 0) (t : Tables) : mulLog t a b = 0 := if_pos h

/-- "Subtract 255 once": two logarithms sum to at most 508. -/
theorem mulLog_eq_readExp {t : Tables} (ht : t.Valid) {a b : Byte} (ha : a ≠ 0) (hb : b ≠ 0) {sum : Nat}
    (hsum : sum = (t.readLog a).toNat + (t.readLog b).toNat) {k : Fin 255}
    (hk : k.val = if 255 ≤ sum then sum - 255 else sum) : mulLog t a b = t.readExp k := by
  obtain ⟨hloga, -⟩ := ht.log a ha
  obtain ⟨hlogb, -⟩ := ht.log b hb
  have hindex : expIndex sum = k := by
    apply Fin.ext
    rw [hk]
    dsimp only [expIndex]
    split <;> omega
  rw [mulLog, if_neg (not_or.mpr ⟨ha, hb⟩), ← hsum, hindex]

/-- Settles O13: by the operands: one of them 0, or both logarithms below 255. -/
theorem mullAnswersTheFieldProduct : Obligations.MullAnswersTheFieldProduct := by
  refine ⟨fun a b s h => ?zero, fun a b s sum k hs ha hb hsum hk => ?sum, fun a b s hs => ?product,
    execRequest_formBB fun w hw => by simp [decode, hw]⟩
  case zero => rw [exec_mull, mulLog_zero h]; rfl
  case sum => rw [exec_mull, mulLog_eq_readExp hs ha hb hsum hk]
  case product => rw [exec_mull, mulLog_eq_gfmul hs]

/-! ### MULT (R88) -/

theorem exec_mult (a b : Byte) (s : State) :
    exec (.mult a b) s = .next (s.push ⟨.ok, (s.tables.readMul a b).setWidth 48, 0x3, 0⟩) := rfl

/-- Settles O14: the lookup, and what valid tables hold there. -/
theorem multAnswersTheFieldProduct : Obligations.MultAnswersTheFieldProduct :=
  ⟨exec_mult, fun a b s hs => by rw [exec_mult, hs.multab],
    execRequest_formBB fun w hw => by simp [decode, hw]⟩

/-! ### POW (R84, R85) -/

theorem exec_pow (base e : Byte) (s : State) :
    exec (.pow base e) s = .next (s.push ⟨.ok, (pow base e.toNat).setWidth 48, 0x6, 0⟩) := rfl

theorem pow_eq_foldl (base : Byte) (e : Nat) : pow base e = (List.replicate e base).foldl gfmul 1 := by
  induction e with
  | zero => rfl
  | succ e ih => rw [pow_succ_exponent, ih, List.replicate_succ', List.foldl_append]; rfl

theorem pow_zero_base (e : Nat) : pow 0 e = if e = 0 then 1 else 0 := by
  cases e with
  | zero => rfl
  | succ e => exact gfmul_zero_right _

/-- a^e = 3^(LOG a · e). -/
theorem pow_eq_readExp {t : Tables} (ht : t.Valid) {a : Byte} (ha : a ≠ 0) (e : Nat) :
    pow a e = t.readExp (expIndex ((t.readLog a).toNat * e)) := by
  rw [ht.readExp_expIndex, pow_mul_exponent, (ht.log a ha).2]

/-- Settles O15: R84's recursion is the left fold; 0 absorbs, and a nonzero base is a power of 3. -/
theorem powAnswersTheIteratedProduct : Obligations.PowAnswersTheIteratedProduct :=
  ⟨fun base e s => by rw [exec_pow, pow_eq_foldl], pow_zero_exponent,
    fun e he => by rw [pow_zero_base, if_neg (by omega)], pow_one_base, fun _ => pow_255_of_ne_zero,
    execRequest_formBB fun w hw => by simp [decode, hw]⟩

/-- Settles O32: the logarithm of a power is the multiple of the logarithm. -/
theorem powHasItsClosedForm : Obligations.PowHasItsClosedForm :=
  fun _ ht _ e => ⟨fun ha => pow_eq_readExp ht ha e, pow_zero_base e⟩

end Sys2Proof.Machine

/-! The packed multiply (spec/41_packed.md): its lanes, their places in DATA, and the response of
MULP4. -/

namespace Sys2Proof.Machine

/-! ### The lanes of the product (R100) -/

theorem lane_mulLanes (mul : Byte → Byte → Byte) (a b : Packed) {k : Nat} (hk : k < 4) :
    lane (mulLanes mul a b) k = mul (lane a k) (lane b k) := by
  obtain ⟨h0, h1, h2, h3⟩ := packLanes_lane (mul (lane a 0) (lane b 0)) (mul (lane a 1) (lane b 1))
    (mul (lane a 2) (lane b 2)) (mul (lane a 3) (lane b 3))
  match k with
  | 0 => exact h0
  | 1 => exact h1
  | 2 => exact h2
  | 3 => exact h3

/-! ### The packed result in DATA (spec/30_encoding.md R65) -/

theorem extractLsb'_packedData_lane (r : Packed) {k : Nat} (hk : k < 4) :
    (packedData r).extractLsb' (8 * k) 8 = lane r k :=
  BitVec.extractLsb'_setWidth_of_le (by omega)

theorem extractLsb'_packedData_high (r : Packed) : (packedData r).extractLsb' 32 16 = 0 := by
  ext i hi
  simp [packedData]

/-! ### The operands of form WW (R63) -/

@[simp] theorem packedA_word (r : Request) : packedA r.word = r.a.extractLsb' 0 32 := by
  rw [packedA, aField_word]

@[simp] theorem packedB_word (r : Request) : packedB r.word = r.b := by
  rw [packedB, bField_word, BitVec.extractLsb'_eq_self]

theorem decode_mulp4_word (A : BitVec 48) (B : BitVec 32) :
    decode (Request.word ⟨0x4, A, B⟩) = .ok (.mulp4 (A.extractLsb' 0 32) B) := by
  simp [decode]

/-! ### MULP4 (R100, R101) -/

/-- Settles O16: on valid tables MULP4 and MULT give the pure answer, whose DATA holds the field products
of the lanes. -/
theorem mulp4AnswersTheProductOfEachLane : Obligations.Mulp4AnswersTheProductOfEachLane := by
  refine ⟨fun a b s hs => ⟨packedData (mulLanes gfmul a b), exec_eq_answerInstr hs (.mulp4 a b),
    extractLsb'_packedData_high _, fun k hk => ?lane⟩,
    fun A B s => execRequest_of_decode (decode_mulp4_word A B) s⟩
  have hlane : (packedData (mulLanes gfmul a b)).extractLsb' (8 * k) 8 = gfmul (lane a k) (lane b k) :=
    (extractLsb'_packedData_lane _ hk).trans (lane_mulLanes gfmul a b hk)
  rw [hlane]
  exact ⟨rfl, exec_eq_answerInstr hs (.mult (lane a k) (lane b k))⟩

end Sys2Proof.Machine

/-! The inverse (spec/42_inverse.md): its value as EXP at the negated logarithm, the agreement of its
methods, and the response of INV. -/

namespace Sys2Proof.Machine

/-! ### The value (R110, R112) -/

theorem gfinv_zero : gfinv 0 = 1 := rfl

theorem gfmul_gfinv {a : Byte} (ha : a ≠ 0) : gfmul a (gfinv a) = 1 := gfmul_invLog rom_valid ha

/-- The logarithm's method reads one value from any valid tables, not only from the listings. -/
theorem gfinv_eq_readExp {t : Tables} (ht : t.Valid) {a : Byte} (ha : a ≠ 0) :
    gfinv a = t.readExp (expIndex (255 - (t.readLog a).toNat)) := calc
  gfinv a = invLog t a := (congrFun (invBy_eq_gfinv ht .log) a).symm
  _ = t.readExp (expIndex (255 - (t.readLog a).toNat)) := if_neg ha

/-! ### The methods (R111) -/

/-- Settles O25: every multiply is the field product, over which every method gives `gfinv`; a^254 is an
inverse of a nonzero a, and 0 absorbs. -/
theorem allInverseMethodsAgree : Obligations.AllInverseMethodsAgree :=
  ⟨fun _ ht impl m a => by rw [mulBy_eq_gfmul ht m, invBy_eq_gfinv ht impl],
    fun _ ha => eq_gfinv ha (gfmul_pow_254 ha), gfinv_zero, pow_zero_base 254⟩

/-! ### INV (R110, R112) -/

theorem decode_inv_word (A : BitVec 48) (B : BitVec 32) :
    decode (Request.word ⟨0x5, A, B⟩) = .ok (.inv (A.extractLsb' 0 8)) := by
  simp [decode]

/-- Settles O17: the answer is `gfinv`, which is 1 at 0, and at a nonzero byte the inverse that the
tables hold. -/
theorem invAnswersTheInverse : Obligations.InvAnswersTheInverse := by
  refine ⟨fun a s hs => ⟨gfinv a, exec_eq_answerInstr hs (.inv a), ?zero,
      fun ha => ⟨gfmul_gfinv ha, gfinv_eq_readExp hs ha⟩⟩,
    fun A B s => execRequest_of_decode (decode_inv_word A B) s⟩
  case zero =>
    rintro rfl
    exact ⟨gfinv_zero, gfmul_zero_left _⟩

end Sys2Proof.Machine

/-! The erasure code (spec/43_erasure_code.md): the symbols as values of one polynomial and their places in
DATA, Cramer's rule on two of them, and the responses of ENC and DEC. -/

namespace Sys2Proof.Machine

/-! ### The symbols (R120 to R122) -/

theorem encodeSymbol_eq_polynomial (y0 y1 : Byte) (x : Fin 6) :
    encodeSymbol gfmul y0 y1 x = y0 ^^^ gfmul (y0 ^^^ y1) (point x) := by
  rw [encodeSymbol, gfmul_xor_right, gfmul_one_right, gfmul_xor_left]
  ac_rfl

/-- The coefficients of a position sum to 1. -/
theorem encodeSymbol_same (y : Byte) (x : Fin 6) : encodeSymbol gfmul y y x = y := by
  rw [encodeSymbol, ← gfmul_xor_right, xor_xor_cancel_comm, gfmul_one_right]

theorem encodeSymbol_xor (y0 y1 z0 z1 : Byte) (x : Fin 6) :
    encodeSymbol gfmul (y0 ^^^ z0) (y1 ^^^ z1) x =
      encodeSymbol gfmul y0 y1 x ^^^ encodeSymbol gfmul z0 z1 x := by
  simp only [encodeSymbol, gfmul_xor_left]
  ac_rfl

theorem encodeSymbol_zero (y0 y1 : Byte) : encodeSymbol gfmul y0 y1 0 = y0 := calc
  encodeSymbol gfmul y0 y1 0 = y0 ^^^ gfmul (y0 ^^^ y1) 0 := encodeSymbol_eq_polynomial y0 y1 0
  _ = y0 := by rw [gfmul_zero_right, xor_zero]

theorem encodeSymbol_one (y0 y1 : Byte) : encodeSymbol gfmul y0 y1 1 = y1 := calc
  encodeSymbol gfmul y0 y1 1 = y0 ^^^ gfmul (y0 ^^^ y1) 1 := encodeSymbol_eq_polynomial y0 y1 1
  _ = y1 := by rw [gfmul_one_right, xor_cancel_left]

theorem coefficients_eq : ∀ x : Fin 6,
    point x ^^^ 1 = (#v[1, 0, 3, 2, 5, 4] : Vector Byte 6)[x] ∧
      point x = (#v[0, 1, 2, 3, 4, 5] : Vector Byte 6)[x] := by
  decide

/-- Settles O37: the coefficients are evaluated, and they sum to 1. -/
theorem encodingEvaluatesAPolynomial : Obligations.EncodingEvaluatesAPolynomial := by
  intro y0 y1 x
  obtain ⟨hcoeff0, hcoeff1⟩ := coefficients_eq x
  exact ⟨by rw [encodeSymbol, hcoeff0, hcoeff1], encodeSymbol_eq_polynomial y0 y1 x⟩

/-! ### The symbols in DATA (R120) -/

theorem symbol_encodePair (mul : Byte → Byte → Byte) (y0 y1 : Byte) (x : Fin 6) :
    symbol (encodePair mul y0 y1) x = encodeSymbol mul y0 y1 x := by
  obtain ⟨h0, h1, h2, h3, h4, h5⟩ := packSymbols_bytes (encodeSymbol mul y0 y1 0)
    (encodeSymbol mul y0 y1 1) (encodeSymbol mul y0 y1 2) (encodeSymbol mul y0 y1 3)
    (encodeSymbol mul y0 y1 4) (encodeSymbol mul y0 y1 5)
  match x with
  | 0 => exact h0
  | 1 => exact h1
  | 2 => exact h2
  | 3 => exact h3
  | 4 => exact h4
  | 5 => exact h5

theorem getElem_symbols (d : Data) (x : Fin 6) :
    (#v[d.extractLsb' 0 8, d.extractLsb' 8 8, d.extractLsb' 16 8, d.extractLsb' 24 8,
      d.extractLsb' 32 8, d.extractLsb' 40 8] : Codeword)[x] = symbol d x :=
  match x with
  | 0 | 1 | 2 | 3 | 4 | 5 => rfl

/-! ### ENC (R120, R122) -/

theorem exec_enc {s : State} (hs : s.tables.Valid) (y0 y1 : Byte) :
    exec (.enc y0 y1) s = .next (s.push ⟨.ok, encodePair gfmul y0 y1, 0x7, 0⟩) :=
  exec_eq_answerInstr hs (.enc y0 y1)

theorem push_injective (s : State) : Function.Injective s.push := fun _ _ h =>
  List.singleton_injective (List.append_cancel_left (congrArg State.q h))

theorem data_of_exec_enc {s : State} (hs : s.tables.Valid) {y0 y1 : Byte} {d : Data}
    (h : exec (.enc y0 y1) s = .next (s.push ⟨.ok, d, 0x7, 0⟩)) : d = encodePair gfmul y0 y1 := by
  rw [exec_enc hs] at h
  exact congrArg Entry.data (push_injective s (Host.Outcome.next.inj h)).symm

/-- Settles O18: byte x of the answer is symbol x, which is linear in the data. -/
theorem encAnswersTheCodeword : Obligations.EncAnswersTheCodeword :=
  ⟨fun y0 y1 _ hs => ⟨encodePair gfmul y0 y1, exec_enc hs y0 y1,
      fun x hx => symbol_encodePair gfmul y0 y1 ⟨x, hx⟩⟩,
    fun y0 y1 z0 z1 x => ⟨encodeSymbol_same y0 x, encodeSymbol_xor y0 y1 z0 z1 x⟩,
    execRequest_formBB fun w hw => by simp [decode, hw]⟩

/-- Settles O36: the polynomial is y0 at 0 and y1 at 1. -/
theorem encodingIsSystematic : Obligations.EncodingIsSystematic := by
  intro y0 y1 s d hs h
  rw [data_of_exec_enc hs h]
  exact ⟨(symbol_encodePair gfmul y0 y1 0).trans (encodeSymbol_zero y0 y1),
    (symbol_encodePair gfmul y0 y1 1).trans (encodeSymbol_one y0 y1)⟩

/-! ### Cramer's rule (R123, R124) -/

theorem gfmul_gfinv_cancel (y : Byte) {a : Byte} (ha : a ≠ 0) : gfmul (gfmul y a) (gfinv a) = y := by
  rw [gfmul_assoc, gfmul_gfinv ha, gfmul_one_right]

theorem xor_xor_xor_cancel (a b c : Byte) : (a ^^^ c) ^^^ (b ^^^ c) = a ^^^ b := by
  rw [BitVec.xor_comm b c, BitVec.xor_assoc, xor_cancel_left]

/-- The numerator of y0: of the values of y + z·X at p and q, only y·(p + q) remains. -/
theorem cross_sum (y z p q : Byte) :
    gfmul (y ^^^ gfmul z p) q ^^^ gfmul (y ^^^ gfmul z q) p = gfmul y (p ^^^ q) := by
  have hcomm : gfmul (gfmul z q) p = gfmul (gfmul z p) q := by
    rw [gfmul_assoc, gfmul_comm q p, gfmul_assoc]
  rw [gfmul_xor_left, gfmul_xor_left, hcomm, xor_xor_xor_cancel, ← gfmul_xor_right,
    BitVec.xor_comm q p]

/-- The numerator of y1: y + z·X is (y + z) + z·(X + 1), so it is that of y0 at the points p + 1 and
q + 1. -/
theorem cross_sum_shifted (y z p q : Byte) :
    gfmul (y ^^^ gfmul z p) (q ^^^ 1) ^^^ gfmul (y ^^^ gfmul z q) (p ^^^ 1) =
      gfmul (y ^^^ z) (p ^^^ q) := by
  have hshift (x : Byte) : y ^^^ gfmul z x = (y ^^^ z) ^^^ gfmul z (x ^^^ 1) := by
    rw [gfmul_xor_right, gfmul_one_right, xor_xor_xor_cancel]
  rw [hshift p, hshift q, cross_sum, xor_xor_xor_cancel]

theorem point_xor_ne_zero : ∀ {x0 x1 : Fin 6}, x0 ≠ x1 → point x0 ^^^ point x1 ≠ 0 := by decide

theorem solvePair_encodeSymbol (y0 y1 : Byte) {x0 x1 : Fin 6} (hx : x0 ≠ x1) :
    solvePair gfmul gfinv (point x0) (point x1) (encodeSymbol gfmul y0 y1 x0)
      (encodeSymbol gfmul y0 y1 x1) = (y0, y1) := by
  simp only [solvePair, encodeSymbol_eq_polynomial, cross_sum, cross_sum_shifted, xor_cancel_left,
    gfmul_gfinv_cancel _ (point_xor_ne_zero hx)]

/-! ### DEC (R123, R125) -/

@[simp] theorem symbolField_word (r : Request) (x : Nat) :
    symbolField r.word x = r.a.extractLsb' (8 * x) 8 := by
  rw [symbolField, aField_word]

@[simp] theorem presentField_word (r : Request) : presentField r.word = r.b.extractLsb' 0 6 := by
  rw [presentField, bField_word]

theorem decode_dec_word (A : BitVec 48) (B : BitVec 32) :
    decode (Request.word ⟨0x8, A, B⟩) =
      .ok (.dec (A.extractLsb' 0 8) (A.extractLsb' 8 8) (A.extractLsb' 16 8) (A.extractLsb' 24 8)
        (A.extractLsb' 32 8) (A.extractLsb' 40 8) (B.extractLsb' 0 6)) := by
  simp [decode]

theorem exec_dec_of_solution {s : State} (hs : s.tables.Valid) {c0 c1 c2 c3 c4 c5 : Byte}
    {present : BitVec 6} {x0 x1 : Fin 6} (hlow : (presentPositions present).take 2 = [x0, x1])
    {y0 y1 : Byte} (hy : solvePair gfmul gfinv (point x0) (point x1)
      #v[c0, c1, c2, c3, c4, c5][x0] #v[c0, c1, c2, c3, c4, c5][x1] = (y0, y1)) :
    exec (.dec c0 c1 c2 c3 c4 c5 present) s = .next (s.push ⟨.ok, 0#32 ++ y1 ++ y0, 0x8, 0⟩) := by
  simp only [exec, execDec, State.mul_eq_gfmul hs, State.inv_eq_gfinv hs, decodePair_two hlow, hy,
    pairData_eq, respond_eq]

theorem exec_dec_insufficient (c0 c1 c2 c3 c4 c5 : Byte) {present : BitVec 6}
    (h : popcount present < 2) (s : State) :
    exec (.dec c0 c1 c2 c3 c4 c5 present) s = raise 0x8 .insufficientSymbols s := by
  simp only [exec, execDec, decodePair_none_iff.mpr (decide_eq_true h)]

/-- Settles O19: the two lowest positions are the first two listed, and an inverse of their sum is
`gfinv`'s. -/
theorem decAnswersFromTheTwoLowestPositions : Obligations.DecAnswersFromTheTwoLowestPositions := by
  refine ⟨?solves, fun c0 c1 c2 c3 c4 c5 present s h => exec_dec_insufficient c0 c1 c2 c3 c4 c5 h s,
    fun A B s => execRequest_of_decode (decode_dec_word A B) s⟩
  case solves =>
    rintro c0 c1 c2 c3 c4 c5 present s x0 x1 _ _ _ _ dxInv hs hlt h0 h1 hlow rfl rfl rfl rfl hdxInv
    have htake := presentPositions_take present x0 x1 hlt h0 h1 hlow
    obtain rfl : dxInv = gfinv (point x0 ^^^ point x1) := eq_gfinv (point_xor_ne_zero hlt.ne) hdxInv
    exact ⟨_, _, rfl, rfl, exec_dec_of_solution hs htake rfl⟩

/-- Settles O38: two of the symbols are present, and Cramer's rule on the lowest two gives the data. -/
theorem decodingRecoversTheData : Obligations.DecodingRecoversTheData := by
  intro y0 y1 present s d x x' hs hne hx hx' henc
  obtain ⟨x0, x1, hlt, hlow⟩ := presentPositions_many present x x' hne hx hx'
  refine exec_dec_of_solution hs hlow ?_
  rw [getElem_symbols, getElem_symbols, data_of_exec_enc hs henc, symbol_encodePair, symbol_encodePair,
    solvePair_encodeSymbol y0 y1 hlt.ne]

/-- Settles O39: each row of the list is evaluated; `List.all` keeps the evaluation to the rows listed. -/
theorem decodeIntermediateValues : Obligations.DecodeIntermediateValues :=
  List.all_iff_forall_prop.mp (by decide +kernel)

end Sys2Proof.Machine

/-! The two errors, the legality of every entry, the STATUS codes, and the idle block
(spec/60_exceptions.md R140 to R146, R155). -/

namespace Sys2Proof.Machine

/-! ### Reserved codes (R141) -/

theorem execRequest_reserved {r : Request} (h : 9 ≤ r.op.toNat) (s : State) :
    execRequest r s = .next (s.push ⟨.illegalOp, 0, r.op, 0⟩) := by
  have hdecode : decode r.word = .error (.reservedOp r.op) := by
    simpa using decode_of_le_op (w := r.word) (by rwa [opField_word])
  simp only [execRequest, hdecode, execReserved, raise_eq, errorStatus]

/-- Settles O8: the edge accepts, and the request's word has no instruction. -/
theorem reservedOpcodeIsAnsweredIllegalOp : Obligations.ReservedOpcodeIsAnsweredIllegalOp := by
  intro s hrst hvalid hdone hroom hop
  have ha : s.accepts s.nextPins = true := (accepts_iff _ _).mpr ⟨hrst, hvalid, hdone, hroom⟩
  exact (edge_accepts ha).trans (execRequest_reserved hop _)

/-! ### DEC without two positions (R142) -/

/-- Settles O20: such a mask lists fewer than two positions. -/
theorem decRejectsFewerThanTwoPositions : Obligations.DecRejectsFewerThanTwoPositions :=
  fun c0 c1 c2 c3 c4 c5 present s h =>
    exec_dec_insufficient c0 c1 c2 c3 c4 c5 (presentPositions_few present h) s

/-! ### What a response can be (R140, R146) -/

/-- Settles O22: the entry that `execRequest_legal` names is the one that `s'` has. -/
theorem everyEntryIsLegal : Obligations.EveryEntryIsLegal := by
  intro r s s' h
  obtain ⟨e, he, hop, hlegal⟩ := execRequest_legal r s
  exact ⟨e, Host.Outcome.next.inj (h.symm.trans he), hop, hlegal⟩

/-- Settles O23: the fields of the word are the code of the status, by its three names, and DATA. -/
theorem statusCodeThreeIsNeverProduced : Obligations.StatusCodeThreeIsNeverProduced := by
  intro r
  rw [responseWord_status, responseWord_data]
  cases r.status with
  | _ => simp [statusCode]

/-! ### The idle block (R155) -/

theorem rspEdge_of_empty {s : State} (h : s.q = []) (p : Pins) : s.rspEdge p = s := by
  have hd : s.delivers p = none := by simp [State.delivers, offered_nil h]
  have hq : s.q.map Entry.older = s.q := by simp [h]
  simp only [State.rspEdge, hd, hq]

theorem initEdge_of_done {s : State} (h : s.initDone = true) : s.initEdge = s := by
  have hrises : (s.initDone || s.initRises) = s.initDone := by simp [h]
  simp only [State.initEdge, nextTables_done h, hrises, if_pos h]

/-- Settles O52: with Q empty the response channel does nothing, and the initialiser has ended. -/
theorem idleBlockKeepsItsState : Obligations.IdleBlockKeepsItsState := by
  intro s hdone hq hrst hvalid
  have ha : s.accepts s.nextPins = false := by simp [State.accepts, hvalid]
  rw [step, edge_quiet hrst ha, State.quietEdge, rspEdge_of_empty hq, initEdge_of_done hdone]

end Sys2Proof.Machine

/-! Reset, initialisation and a full queue: the reset edge, and runs of edges with rst = 0
(spec/70_reset_and_hazards.md R160 to R166). -/

namespace Sys2Proof.Machine

/-! ### The reset edge (R160) -/

/-- Settles O40: the edge is `resetEdge`, which leaves Q empty and init_done = 0. -/
theorem resetEdgeClearsTheBlock : Obligations.ResetEdgeClearsTheBlock := by
  intro s hrst
  exact ⟨s.resetEdge, edge_reset hrst s, rfl, rfl, rfl,
    outputsComeFromTheHead.1 _ rfl, rfl, rfl, rfl, rfl⟩

/-! ### Runs with the ports held to a condition -/

/-- A property of the state and of the edges seen that each edge carries on holds after k edges more. -/
theorem run_carries {ok : Pins → Prop} {holds : Nat → State → Prop}
    (carry : ∀ j s, holds j s → ok s.nextPins → ∃ s', step s = .next s' ∧ holds (j + 1) s') (k : Nat) :
    ∀ j s, holds j s → s.comingPins k ok →
      ∃ s', Host.Core.run Sys2Proof.core k s = .next s' ∧ holds (j + k) s' := by
  induction k with
  | zero => exact fun j s h _ => ⟨s, rfl, h⟩
  | succ k ih =>
    intro j s h hpins
    obtain ⟨s₁, hstep, h₁⟩ := carry j s h (comingPins_head hpins)
    obtain ⟨hpins₁, -⟩ := edge_common hstep
    obtain ⟨s', hrun, h'⟩ := ih (j + 1) s₁ h₁ (comingPins_succ hpins hpins₁).2
    exact ⟨s', (run_succ hstep k).trans hrun, (Nat.add_right_comm j 1 k ▸ h' : holds (j + k + 1) s')⟩

/-! ### Initialisation (R162, R163) -/

/-- With the invariant, init_done = 1 exactly where the count is past INIT_CYCLES. -/
theorem State.Inv.initDone_iff {s : State} (h : s.Inv) :
    s.initDone = true ↔ s.params.initCycles + 1 ≤ s.initCount := by
  have hcount := h.count
  cases hd : s.initDone with
  | true =>
    simp only [hd, if_true] at hcount
    simp [hcount]
  | false =>
    simp only [hd, Bool.false_eq_true, if_false] at hcount
    simpa [Nat.lt_succ_iff] using hcount

theorem step_initCount {s s' : State} (hr : s.nextPins.rst = false) (hstep : step s = .next s') :
    s'.initCount = if s.initDone then s.initCount else s.initCount + 1 := by
  rcases edge_cases hstep with ⟨hrst, -⟩ | ⟨-, -, st, d, -, rfl⟩ | ⟨-, -, rfl⟩
  · simp [hr] at hrst
  · simp
  · simp

/-- Before init_done no request transfers, so Q stays empty. -/
theorem step_q_before_done {s s' : State} (hd : s.initDone = false) (hq : s.q = [])
    (hstep : step s = .next s') : s'.q = [] := by
  rcases edge_cases hstep with ⟨-, rfl⟩ | ⟨-, ha, -⟩ | ⟨-, -, rfl⟩
  · rfl
  · obtain ⟨-, -, hdone, -⟩ := (accepts_iff _ _).mp ha
    simp [hd] at hdone
  · rw [quietEdge_q, rspEdge_of_empty hq, hq]

/-- The block with parameters `p`, j edges with rst = 0 after initialisation began. -/
structure State.Initialising (p : Params) (j : Nat) (s : State) : Prop where
  inv : s.Inv
  params : s.params = p
  /-- The initialiser counts the edges, INIT_CYCLES + 1 of them. -/
  count : s.initCount = min j (p.initCycles + 1)
  /-- Q is empty up to the edge at which init_done rises, that one included. -/
  empty : j ≤ p.initCycles + 1 → s.q = []

theorem initialising_zero {s : State} (h : s.Inv) (hd : s.initDone = false) (hcount : s.initCount = 0) :
    s.Initialising s.params 0 :=
  ⟨h, rfl, by rw [hcount, Nat.zero_min], fun _ => h.gated hd⟩

theorem State.Initialising.initDone_iff {p : Params} {j : Nat} {s : State} (h : s.Initialising p j) :
    s.initDone = true ↔ p.initCycles + 1 ≤ j := by
  rw [h.inv.initDone_iff, h.params, h.count]
  omega

theorem initialising_succ {p : Params} (j : Nat) (s : State) (h : s.Initialising p j)
    (hr : s.nextPins.rst = false) : ∃ s', step s = .next s' ∧ s'.Initialising p (j + 1) := by
  obtain ⟨s', hstep⟩ := stepAlwaysAnswersANextState s
  obtain ⟨-, hparams⟩ := edge_common hstep
  have hdone := h.initDone_iff
  refine ⟨s', hstep, stepKeepsTheInvariant s s' h.inv hstep, hparams.trans h.params, ?_, fun hj => ?_⟩
  · simp only [step_initCount hr hstep, h.count, hdone]
    split
    all_goals omega
  · have hd : s.initDone = false := by
      rw [← Bool.not_eq_true, hdone]
      omega
    exact step_q_before_done hd (h.inv.gated hd) hstep

theorem run_initialising (k : Nat) {s : State} (h : s.Inv) (hd : s.initDone = false)
    (hcount : s.initCount = 0) (hpins : s.comingPins k (fun p => p.rst = false)) :
    ∃ s', Host.Core.run Sys2Proof.core k s = .next s' ∧ s'.Initialising s.params k := by
  simpa using run_carries initialising_succ k 0 s (initialising_zero h hd hcount) hpins

/-- Settles O42: after k edges the count is the lesser of k and INIT_CYCLES + 1. -/
theorem initDoneRisesAfterInitCycles : Obligations.InitDoneRisesAfterInitCycles := by
  intro s k h hd hcount hpins
  obtain ⟨s', hrun, h'⟩ := run_initialising k h hd hcount hpins
  exact ⟨s', hrun, h'.initDone_iff, fun hdone => h'.inv.tablesValid (.inl hdone)⟩

/-- Settles O43: Q is still empty at the edge at which init_done rises, and MAX_OUTSTANDING is not 0. -/
theorem initialisedBlockIsReady : Obligations.InitialisedBlockIsReady := by
  intro s h hd hcount hpins
  obtain ⟨s', hrun, h'⟩ := run_initialising _ h hd hcount hpins
  have hdone : s'.initDone = true := h'.initDone_iff.mpr le_rfl
  have hq : s'.q = [] := h'.empty le_rfl
  have hroom : s'.q.length < s'.params.maxOutstanding := by
    rw [hq]
    exact one_le_maxOutstanding h'.inv.params
  exact ⟨s', hrun, hq, outputsComeFromTheHead.1 s' hq,
    (readyExactlyWhenInitialisedWithRoom s').mpr ⟨hdone, hroom⟩, h'.inv.tablesValid (.inl hdone)⟩

/-! ### A full queue (R166) -/

/-- Q holds MAX_OUTSTANDING responses, the ones listed. -/
def State.FullOf (w : List Response) (s : State) : Prop :=
  s.pending = w ∧ s.q.length = s.params.maxOutstanding

theorem reqReady_of_full {s : State} (h : s.q.length = s.params.maxOutstanding) : s.reqReady = false := by
  simp [State.reqReady, h]

/-- A full Q takes no request, and without rsp_ready no response leaves it. -/
theorem step_full {w : List Response} {s : State} (h : s.FullOf w)
    (hpins : s.nextPins.rst = false ∧ s.nextPins.rspReady = false) :
    ∃ s', step s = .next s' ∧ s'.FullOf w := by
  obtain ⟨hw, hfull⟩ := h
  obtain ⟨hr, hready⟩ := hpins
  obtain ⟨s', new, hstep, h'⟩ := step_follows hr
  obtain ⟨hq, -⟩ := h'.keeps (delivers_not_ready hready)
  rw [h'.idle (accepts_false_of_not_ready (reqReady_of_full hfull) _), List.append_nil] at hq
  refine ⟨s', hstep, ?_, ?_⟩
  · rw [← hw]
    simp [State.pending, hq, Function.comp_def]
  · rw [hq, List.length_map, h'.params, hfull]

/-- Settles O51: every such edge keeps Q full of the same responses. -/
theorem fullQueueStallsUntilTheHostTakes : Obligations.FullQueueStallsUntilTheHostTakes := by
  intro s k hfull hpins
  obtain ⟨s', hrun, hpending, hfull'⟩ := run_carries (holds := fun _ => State.FullOf s.pending)
    (fun _ _ => step_full) k 0 s ⟨rfl, hfull⟩ hpins
  exact ⟨s', hrun, hpending, reqReady_of_full hfull'⟩

end Sys2Proof.Machine
